-- ==== Sys2Proof/Word.lean ====
section
/-! DEFINITION. The machine's word types: a byte (rule R6) and a register index (rule R39). -/

namespace Sys2Proof

/-- An unsigned 8-bit value: a register, a memory cell, an address (rules R6, R10, R17). -/
abbrev Byte := BitVec 8

/-- A general register's index, the 3-bit field of a register operand byte (rules R23, R39). -/
abbrev Reg := BitVec 3

end Sys2Proof
end

