-- ==== Sys2Proof/Syntax.lean ====
section
/-! DEFINITION. The 14 instructions of the opcode table (rule R42), one constructor each. Operands stand in the order of their bytes in
memory (rule R41). -/

namespace Sys2Proof

/-- The recognised opcodes (rule R42): the names only; their bytes are `Opcode.byte` in Decode. -/
inductive Opcode where
  | hlt | ret | push | pop | prn | call | jmp | jeq | jne | ldi | st | add | mul | cmp
  deriving DecidableEq, Repr

/-- The four instruction formats (rule R37). -/
inductive Format where
  /-- No operand byte. -/
  | n
  /-- One register operand byte. -/
  | r
  /-- Two register operand bytes. -/
  | rr
  /-- A register operand byte, then an immediate byte. -/
  | ri
  deriving DecidableEq, Repr

/-- An instruction (rules R37, R42). A register operand is a 3-bit index, so every term of this type is well formed; what can be ill
formed is a sequence of bytes (WellFormed). -/
inductive Instr where
  /-- HLT: stop cleanly (rule R93). -/
  | hlt
  /-- RET: pop the program counter (rule R87). -/
  | ret
  /-- PUSH r (rule R81). -/
  | push (r : Reg)
  /-- POP r (rule R82). -/
  | pop (r : Reg)
  /-- PRN r: send the register to the console port (rule R91). -/
  | prn (r : Reg)
  /-- CALL r: push the return address, jump to the register's value (rule R86). -/
  | call (r : Reg)
  /-- JMP r (rule R88). -/
  | jmp (r : Reg)
  /-- JEQ r: jump when `FL.E` is set (rule R90). -/
  | jeq (r : Reg)
  /-- JNE r: jump when `FL.E` is clear (rule R89). -/
  | jne (r : Reg)
  /-- LDI r, v: load an 8-bit immediate (rule R77). -/
  | ldi (r : Reg) (v : Byte)
  /-- ST d, s: store register `s` at the address in register `d` (rule R78). -/
  | st (d s : Reg)
  /-- ADD a, b (rule R74). -/
  | add (a b : Reg)
  /-- MUL a, b (rule R75). -/
  | mul (a b : Reg)
  /-- CMP a, b (rule R76). -/
  | cmp (a b : Reg)
  deriving DecidableEq, Repr

end Sys2Proof
end

