-- ==== Sys2Proof/WellFormed.lean ====
section
/-! DEFINITION. When a sequence of bytes begins with a well-formed instruction (rules R37, R39, R42): a recognised opcode byte, all its
operand bytes present, and zeros in bits 7:3 of every register operand byte. It is written as a check on raw bytes, apart from the decoder,
so that the decoder can be held against it. -/

namespace Sys2Proof.WellFormed

/-- Bits 7:3 of a register operand byte are zero, that is, it names one of R0 to R7 (rule R39). -/
def regByteOk (o : Byte) : Bool := o.toNat ≤ 7

/-- The opcode bytes of format N (rule R42). -/
def opcodesN : List Byte := [0x01#8, 0x11#8]

/-- The opcode bytes of format R (rule R42). -/
def opcodesR : List Byte := [0x45#8, 0x46#8, 0x47#8, 0x50#8, 0x54#8, 0x55#8, 0x56#8]

/-- The opcode bytes of format RI (rule R42). -/
def opcodesRI : List Byte := [0x82#8]

/-- The opcode bytes of format RR (rule R42). -/
def opcodesRR : List Byte := [0x84#8, 0xA0#8, 0xA2#8, 0xA7#8]

/-- The 14 recognised opcode bytes (rule R42). -/
def opcodes : List Byte := opcodesN ++ opcodesR ++ opcodesRI ++ opcodesRR

/-- How many operand bytes follow an opcode byte, `none` for a byte that is no opcode (rules R37, R42, R44). -/
def operandCount (op : Byte) : Option Nat :=
  if op ∈ opcodesN then some 0
  else if op ∈ opcodesR then some 1
  else if op ∈ opcodesRI ∨ op ∈ opcodesRR then some 2
  else none

/-- How many of an opcode's operand bytes, counted from the first, name registers (rule R37). -/
def regOperandCount (op : Byte) : Nat :=
  if op ∈ opcodesR ∨ op ∈ opcodesRI then 1
  else if op ∈ opcodesRR then 2
  else 0

/-- The bytes begin with a recognised opcode, its operand bytes are all there, and its register operand bytes are legal. -/
def bytesOk : List Byte → Bool
  | [] => false
  | op :: operands =>
    match operandCount op with
    | none => false
    | some n => n ≤ operands.length && (operands.take (regOperandCount op)).all regByteOk

end Sys2Proof.WellFormed
end

