-- ==== Sys2Proof/Decode.lean ====
section
/-! DEFINITION. The decoder, total on any list of bytes and refusing by name (rules R37 to R44), the encoder, and the host's
`decodeTableWord`. The order of the decoder's checks is rule R102's: unknown opcode, missing operand byte, bad register byte. -/

namespace Sys2Proof

/-- Every recognised opcode, in the table's order (rule R42). -/
def Opcode.all : List Opcode :=
  [.hlt, .ret, .push, .pop, .prn, .call, .jmp, .jeq, .jne, .ldi, .st, .add, .mul, .cmp]

/-- The opcode byte (rule R42). -/
def Opcode.byte : Opcode → Byte
  | .hlt => 0b00000001#8
  | .ret => 0b00010001#8
  | .push => 0b01000101#8
  | .pop => 0b01000110#8
  | .prn => 0b01000111#8
  | .call => 0b01010000#8
  | .jmp => 0b01010100#8
  | .jeq => 0b01010101#8
  | .jne => 0b01010110#8
  | .ldi => 0b10000010#8
  | .st => 0b10000100#8
  | .add => 0b10100000#8
  | .mul => 0b10100010#8
  | .cmp => 0b10100111#8

/-- The format of an opcode (rules R37, R42). -/
def Opcode.format : Opcode → Format
  | .hlt | .ret => .n
  | .push | .pop | .prn | .call | .jmp | .jeq | .jne => .r
  | .ldi => .ri
  | .st | .add | .mul | .cmp => .rr

/-- The operand count of a format (rule R37). -/
def Format.operands : Format → Nat
  | .n => 0
  | .r => 1
  | .rr | .ri => 2

/-- The opcode a byte stands for: all 8 bits are compared, with no decoding by sub-field (rules R38, R43, R44). -/
def Opcode.ofByte (b : Byte) : Option Opcode := Opcode.all.find? fun o => o.byte == b

/-- Why a sequence of bytes is no instruction. -/
inductive DecodeError where
  /-- The opcode byte is not one of the 14 (rule R44). -/
  | unknownOpcode (op : Byte)
  /-- An operand byte is missing: its address would be above 255 (rule R53). -/
  | missingOperand
  /-- A register operand byte has one of bits 7:3 set (rule R39). -/
  | badRegister (o : Byte)
  deriving DecidableEq, Repr

/-- The register a register operand byte names: bits 2:0, defined only when bits 7:3 are zero, never masked (rule R39, the spec's decision
D5). UNVERIFIED, safe: log entry 4. -/
def regOperand (o : Byte) : Except DecodeError Reg :=
  if o.extractLsb' 3 5 = 0#5 then .ok (o.extractLsb' 0 3) else .error (.badRegister o)

/-- The operand of format R: one register byte. -/
def decodeR (k : Reg → Instr) : List Byte → Except DecodeError (Instr × List Byte)
  | o1 :: rest =>
    match regOperand o1 with
    | .ok r => .ok (k r, rest)
    | .error e => .error e
  | [] => .error .missingOperand

/-- The operands of format RR: two register bytes, the first checked first (rules R41, R102). -/
def decodeRR (k : Reg → Reg → Instr) : List Byte → Except DecodeError (Instr × List Byte)
  | o1 :: o2 :: rest =>
    match regOperand o1 with
    | .ok a =>
      match regOperand o2 with
      | .ok b => .ok (k a b, rest)
      | .error e => .error e
    | .error e => .error e
  | [_] => .error .missingOperand
  | [] => .error .missingOperand

/-- The operands of format RI: a register byte, then any byte as it stands (rule R40). -/
def decodeRI (k : Reg → Byte → Instr) : List Byte → Except DecodeError (Instr × List Byte)
  | o1 :: o2 :: rest =>
    match regOperand o1 with
    | .ok r => .ok (k r o2, rest)
    | .error e => .error e
  | [_] => .error .missingOperand
  | [] => .error .missingOperand

/-- The operands of one opcode. -/
def decodeOperands : Opcode → List Byte → Except DecodeError (Instr × List Byte)
  | .hlt, rest => .ok (.hlt, rest)
  | .ret, rest => .ok (.ret, rest)
  | .push, rest => decodeR .push rest
  | .pop, rest => decodeR .pop rest
  | .prn, rest => decodeR .prn rest
  | .call, rest => decodeR .call rest
  | .jmp, rest => decodeR .jmp rest
  | .jeq, rest => decodeR .jeq rest
  | .jne, rest => decodeR .jne rest
  | .ldi, rest => decodeRI .ldi rest
  | .st, rest => decodeRR .st rest
  | .add, rest => decodeRR .add rest
  | .mul, rest => decodeRR .mul rest
  | .cmp, rest => decodeRR .cmp rest

/-- The instruction at the head of a list of bytes, and the bytes after it. -/
def decode : List Byte → Except DecodeError (Instr × List Byte)
  | [] => .error .missingOperand
  | op :: rest =>
    match Opcode.ofByte op with
    | none => .error (.unknownOpcode op)
    | some o => decodeOperands o rest

/-- The opcode of an instruction. -/
def Instr.opcode : Instr → Opcode
  | .hlt => .hlt
  | .ret => .ret
  | .push _ => .push
  | .pop _ => .pop
  | .prn _ => .prn
  | .call _ => .call
  | .jmp _ => .jmp
  | .jeq _ => .jeq
  | .jne _ => .jne
  | .ldi _ _ => .ldi
  | .st _ _ => .st
  | .add _ _ => .add
  | .mul _ _ => .mul
  | .cmp _ _ => .cmp

/-- The register operand byte of a register: the index in bits 2:0, zeros above (rule R37). -/
def regByte (r : Reg) : Byte := 0#5 ++ r

/-- The operand bytes of an instruction, first operand first (rule R41). -/
def Instr.operandBytes : Instr → List Byte
  | .hlt | .ret => []
  | .push r | .pop r | .prn r | .call r | .jmp r | .jeq r | .jne r => [regByte r]
  | .ldi r v => [regByte r, v]
  | .st a b | .add a b | .mul a b | .cmp a b => [regByte a, regByte b]

/-- The bytes of an instruction, the opcode at the lowest address (rules R27, R37). -/
def encode (i : Instr) : List Byte := i.opcode.byte :: i.operandBytes

/-- The length of an instruction in bytes: its operand count plus one (rule R37). -/
def Instr.length (i : Instr) : Nat := i.opcode.format.operands + 1

/-- The first `k` bytes of an instruction given as one number whose bits 7:0 are the opcode byte, 15:8 the first operand byte and so on;
every bit at or above `nbits` is zero. -/
def tableBytes (nbits w : Nat) : Nat → List Byte
  | 0 => []
  | k + 1 => BitVec.ofNat 8 (w % 2 ^ nbits) :: tableBytes (nbits - 8) (w / 256) k

/-- The instruction the decoder reads from an opcode-table word, laid out over the three bytes of the longest instruction. -/
def decodeTableWord (nbits w : Nat) : Option Instr :=
  match decode (tableBytes nbits w 3) with
  | .ok (i, _) => some i
  | .error _ => none

end Sys2Proof
end

