-- ==== Sys2Proof/Config.lean ====
section
/-! DEFINITION. The parameters fixed for this hardware (rule R5) and the reset values (rule R24). The spec leaves no value free, so there
is no opaque constant here. -/

namespace Sys2Proof.Config

/-- `MEM_SIZE`: the number of memory cells (rules R5, R17). -/
def memSize : Nat := 256

/-- `SP_INDEX`: the register used as the stack pointer (rules R5, R12). -/
def spIndex : Reg := 7#3

/-- `SP_RESET`: the reset value of register 7 (rules R5, R24). -/
def spReset : Byte := 0xF4#8

/-- `PC_RESET`: the reset value of the program counter (rules R5, R113). -/
def pcReset : Byte := 0x00#8

/-- The reset value of R0 to R6 (rule R24, the spec's decision D6). UNVERIFIED, unsafe: log entry 5. -/
def regReset : Byte := 0x00#8

/-- The reset value of `FL.E` (rule R24, the spec's decision D6). UNVERIFIED, unsafe: log entry 5. -/
def flEReset : Bool := false

/-- The reset value of IR, which rule R19 leaves unspecified and calls unobservable. DESIGN CHOICE, unsafe: log entry 6. -/
def irReset : Byte := 0x00#8

/-- What a cell that is not listed reads as: memory is zero-initialized (rules R24, R114). -/
def blank : Byte := 0x00#8

end Sys2Proof.Config
end

