-- ==== Sys2Proof/Machine/State.lean ====
section
/-! DEFINITION. The complete state of the block (rule R9), as plain data, and its value after reset (rule R24). -/

namespace Sys2Proof.Machine

/-- The state of the execution loop (rule R18). -/
inductive RunState where
  /-- One instruction is executed per step. -/
  | running
  /-- HLT was executed; terminal. -/
  | halted
  /-- A fault was raised; terminal. -/
  | faulted
  deriving DecidableEq, Repr

/-- The faults of the block (rule R95). The spec describes what raising one does (rule R101), so each is TAKEN, as a next state, by
`State.enterFault`: no step answers `Host.Outcome.fault` (log entry 2). All four are safe: they are the spec's own. -/
inductive Fault where
  /-- Code 1: an operand, successor or return address above 255 (rule R96). Raised by fetching operands, by a sequential successor, by CALL.
  Safe: the spec's own fault. -/
  | invalidAddress
  /-- Code 2: an unknown opcode byte, or a register operand byte above 7 (rule R97). Raised by fetching an instruction. Safe: the spec's own
  fault. -/
  | illegalInstruction
  /-- Code 3: an ALU selector outside the ten (rule R98). Raised by the ALU, never by a program. Safe: the spec's own fault. -/
  | unsupportedOperation
  /-- Code 4: the ALU operation MOD with a zero divisor (rule R99). Raised by the ALU, never by a program. Safe: the spec's own fault. -/
  | divisionByZero
  deriving DecidableEq, Repr

/-- Why the model has no meaning for an instruction. -/
inductive Refusal where
  /-- No meaning written yet: raised by `exec` for an arm that is rejected by name. Safe; at present no arm raises it. -/
  | notModelled (mnemonic : String)
  deriving DecidableEq, Repr

/-- The one memory (rule R17): its cells that do not read as `Config.blank`, as pairs of address and byte in strictly rising order. -/
abbrev Memory := List Host.Cell

/-- An address is above `lo`, where there is one. -/
def Memory.below : Option Nat → Nat → Bool
  | none, _ => true
  | some l, a => l < a

/-- Every address of a list of cells is above `lo`, the addresses rise strictly and are addresses of the 256 cells, and no cell holds what an
unlisted one reads as. -/
def Memory.wfAbove : Option Nat → Memory → Bool
  | _, [] => true
  | lo, (a, v) :: m =>
    Memory.below lo a && a < Config.memSize && v != Config.blank && Memory.wfAbove (some a) m

/-- The canonical form of memory: equal memories are equal lists. -/
def Memory.wf (m : Memory) : Bool := Memory.wfAbove none m

/-- The state of the block (rule R9). -/
structure State where
  /-- R0 to R7 (rule R10); R7 is the stack pointer (rule R12). -/
  regs : Vector Byte 8
  /-- The program counter: the address of the next opcode byte (rule R13). -/
  pc : Byte
  /-- `FL.E`, the one flag (rule R16); the other bits of FL do not exist (log entry 7). -/
  flE : Bool
  /-- MEM (rule R17). -/
  mem : Memory
  /-- The state of the execution loop (rule R18). -/
  run : RunState
  /-- FCAUSE (rules R20, R95). -/
  fcause : BitVec 3
  /-- FPC (rule R20). -/
  fpc : Byte
  /-- FOP (rule R20). -/
  fop : Byte
  /-- IR, the opcode byte fetched in the latest step (rule R19). -/
  ir : Byte
  /-- OUT, every byte PRN has emitted since reset, oldest first (rule R21). -/
  out : List Byte
  deriving DecidableEq, Repr

/-- The status outputs of the block (rule R104). -/
structure StatusOutputs where
  run : RunState
  fcause : BitVec 3
  fpc : Byte
  fop : Byte
  deriving DecidableEq, Repr

/-- The machine right after reset, with no program image placed (rules R24, R112): `State.boot` in Ops places one. -/
def State.reset : State where
  regs := #v[Config.regReset, Config.regReset, Config.regReset, Config.regReset, Config.regReset, Config.regReset, Config.regReset,
    Config.spReset]
  pc := Config.pcReset
  flE := Config.flEReset
  mem := []
  run := .running
  fcause := 0#3
  fpc := 0x00#8
  fop := 0x00#8
  ir := Config.irReset
  out := []

end Sys2Proof.Machine
end

