-- ==== Sys2Proof/Machine/Ops.lean ====
section
/-! DEFINITION. The named operations over registers, memory, the console port and the run state (rules R7, R26, R92, R101), taking a fault,
and the boot image (rule R114). Every read and write of a meaning goes through these. There is no return from a fault beside
`State.enterFault`: nothing but reset leaves the Faulted state (rule R103). -/

namespace Sys2Proof.Machine

/-- What a step answers. -/
abbrev Result := Host.Outcome State Fault Refusal

/-! ### General registers -/

/-- `x[r]` (rules R7, R10). No register is hardwired. -/
def State.reg (s : State) (r : Reg) : Byte := s.regs[r.toNat]'r.isLt

/-- `x[r] <- v` (rules R7, R11). -/
def State.setReg (s : State) (r : Reg) (v : Byte) : State := { s with regs := s.regs.set r.toNat v r.isLt }

/-- The stack pointer, register 7 (rule R12). -/
def State.sp (s : State) : Byte := s.reg Config.spIndex

/-- `x[7] <- (x[7] - 1) mod 256`, with no stack limit (rules R11, R84, the spec's decision D10). UNVERIFIED, unsafe: log entry 9. -/
def State.decSp (s : State) : State := s.setReg Config.spIndex (s.sp - 1#8)

/-- `x[7] <- (x[7] + 1) mod 256`, with no stack limit (rules R11, R84, the spec's decision D10). UNVERIFIED, unsafe: log entry 9. -/
def State.incSp (s : State) : State := s.setReg Config.spIndex (s.sp + 1#8)

/-! ### Program counter and flags -/

/-- `pc <- t` (rule R7). -/
def State.setPc (s : State) (t : Byte) : State := { s with pc := t }

/-- `FL.E <- b` (rules R7, R16). -/
def State.setE (s : State) (b : Bool) : State := { s with flE := b }

/-- FL as a byte: bit 0 is `E`, bits 7:1 are hardwired zero (rule R16). -/
def State.fl (s : State) : Byte := if s.flE then 0x01#8 else 0x00#8

/-! ### Memory -/

/-- The byte at an address; a cell that is not listed reads as `Config.blank`. -/
def Memory.read : Memory → Nat → Byte
  | [], _ => Config.blank
  | (b, w) :: m, a => if b = a then w else Memory.read m a

/-- The cells without any entry for one address. -/
def Memory.erase (m : Memory) (a : Nat) : Memory := m.filter fun c => c.1 != a

/-- A cell put before the first cell of a higher address. -/
def Memory.insert : Memory → Nat → Byte → Memory
  | [], a, v => [(a, v)]
  | (b, w) :: m, a, v => if a < b then (a, v) :: (b, w) :: m else (b, w) :: Memory.insert m a v

/-- The memory with one cell written, in canonical form: writing what an unlisted cell reads as removes the entry. -/
def Memory.write (m : Memory) (a : Nat) (v : Byte) : Memory :=
  if v = Config.blank then m.erase a else (m.erase a).insert a v

/-- `MemRead(addr, 1)` on a natural-number address (rule R26). -/
def memRead (s : State) (addr : Nat) : Except Fault Byte :=
  if addr < Config.memSize then .ok (s.mem.read addr) else .error .invalidAddress

/-- `MemWrite(addr, 1, v)` on a natural-number address (rule R26). -/
def memWrite (s : State) (addr : Nat) (v : Byte) : Except Fault State :=
  if addr < Config.memSize then .ok { s with mem := s.mem.write addr v } else .error .invalidAddress

/-- `MemRead` at an address held in a byte, which is always in range (rules R25, R26). -/
def State.loadByte (s : State) (a : Byte) : Byte := s.mem.read a.toNat

/-- `MemWrite` at an address held in a byte, which is always in range (rules R25, R26). -/
def State.storeByte (s : State) (a : Byte) (v : Byte) : State := { s with mem := s.mem.write a.toNat v }

/-! ### Console port, run state, faults -/

/-- `Out(v)`: append a byte to the console output stream (rule R92). -/
def State.emit (s : State) (v : Byte) : State := { s with out := s.out ++ [v] }

/-- `run <- Halted` (rules R18, R93). -/
def State.halt (s : State) : State := { s with run := .halted }

/-- `IR <- op` (rules R19, R50). -/
def State.setIr (s : State) (op : Byte) : State := { s with ir := op }

/-- The value of FCAUSE for a fault (rule R95, the spec's decision D4). UNVERIFIED, safe: log entry 12. -/
def Fault.code : Fault → BitVec 3
  | .invalidAddress => 1#3
  | .illegalInstruction => 2#3
  | .unsupportedOperation => 3#3
  | .divisionByZero => 4#3

/-- Taking a fault (rule R101): the run state and the fault record change and nothing else. The record's opcode byte comes from IR, which the
step loaded with it (rule R19); the pc still addresses the faulting instruction. -/
def State.enterFault (s : State) (f : Fault) : State :=
  { s with run := .faulted, fcause := f.code, fpc := s.pc, fop := s.ir }

/-- The answer of a step that raises a fault: the NEXT state, the fault entered. -/
def raise (f : Fault) (s : State) : Result := .next (s.enterFault f)

/-- What the platform can read at any time (rule R104). -/
def State.status (s : State) : StatusOutputs := { run := s.run, fcause := s.fcause, fpc := s.fpc, fop := s.fop }

/-- What becomes of a machine that takes no step because it is Halted or Faulted: nothing changes (rules R18, R56). DEDUCED: log entry 1. -/
def stayStopped (s : State) : Result := .next s

/-! ### The boot image -/

/-- Bytes written at consecutive addresses from `a`. -/
def placeBytes (s : State) (a : Nat) : List Byte → State
  | [] => s
  | b :: bs => placeBytes { s with mem := s.mem.write a b } (a + 1) bs

/-- The state when reset is released with a program image placed from address 0 (rules R112, R114); an image of more than 256 bytes is the
loader's business and is not placed. DESIGN CHOICE, safe: log entry 14. -/
def State.boot (image : List Byte) : Option State :=
  if image.length ≤ Config.memSize then some (placeBytes State.reset 0 image) else none

end Sys2Proof.Machine
end

