-- ==== Sys2Proof/Machine/Flags.lean ====
section
/-! DEFINITION. The one flag computation: CMP's equality (rules R16, R72). ADD, MUL and the other operations leave FL alone. -/

namespace Sys2Proof.Machine

/-- `FL.E` after comparing two bytes: equality only, in both outcomes written (rule R72). -/
def equalFlag (a b : Byte) : Bool := a == b

end Sys2Proof.Machine
end

