-- ==== Sys2Proof/Machine/Operands.lean ====
section
/-! DEFINITION. Fetching an instruction and its operand bytes (rules R50, R51, R53) and the checked addresses of the next instruction
(rules R54, R86). The four operand forms themselves are decoded in Decode. -/

namespace Sys2Proof.Machine

/-- The bytes of memory at `a`, `a + 1`, ... as far as `MemRead` can read them, at most `k`. -/
def bytesFrom (s : State) (a : Nat) : Nat → List Byte
  | 0 => []
  | k + 1 =>
    match memRead s a with
    | .ok b => b :: bytesFrom s (a + 1) k
    | .error _ => []

/-- The opcode byte at `pc`; its address is always in range (rule R51). -/
def fetchOpcode (s : State) : Byte := s.loadByte s.pc

/-- The fault that a failure to decode is (rules R53, R96, R97): a missing operand byte is one whose address is above 255. -/
def faultOf : DecodeError → Fault
  | .unknownOpcode _ => .illegalInstruction
  | .missingOperand => .invalidAddress
  | .badRegister _ => .illegalInstruction

/-- The instruction at `pc`, read from at most three bytes (rule R50). The checks come in rule R102's order because `decode` makes them in
it. HLT is one more opcode here: the loop's test for it before the dispatch table has the same effect (log entry 20). -/
def fetch (s : State) : Except Fault Instr :=
  match decode (bytesFrom s s.pc.toNat 3) with
  | .ok (i, _) => .ok i
  | .error e => .error (faultOf e)

/-- `next(n)`: the sequential successor of an instruction with `n` operand bytes, which does not wrap (rules R15, R54, the spec's decision
D2). UNVERIFIED, safe: log entry 3. -/
def seqNext (n : Nat) (s : State) : Except Fault Byte :=
  let t := s.pc.toNat + n + 1
  if t < Config.memSize then .ok (BitVec.ofNat 8 t) else .error .invalidAddress

/-- CALL's return address `pc + 2`, which is not reduced modulo 256 (rule R86, the spec's decision D2). UNVERIFIED, safe: log entry 3. -/
def returnAddress (s : State) : Except Fault Byte :=
  let t := s.pc.toNat + 2
  if t < Config.memSize then .ok (BitVec.ofNat 8 t) else .error .invalidAddress

/-- The shape of every instruction that does not transfer control: the successor is checked before anything changes, then the body makes its
changes, then pc is written (rules R54, R55). A body that faults leaves the state as it was when the step began. -/
def sequential (n : Nat) (body : State → Except Fault State) (s : State) : Result :=
  match seqNext n s with
  | .error f => raise f s
  | .ok t =>
    match body s with
    | .error f => raise f s
    | .ok s' => .next (s'.setPc t)

end Sys2Proof.Machine
end

