-- ==== Sys2Proof/Machine/Alu.lean ====
section
/-! DEFINITION. The ALU with its ten operations (rules R59 to R73) and the three instructions that reach it, ADD, MUL and CMP (rules R74 to
R76). -/

namespace Sys2Proof.Machine

/-- The ALU's operation selector (rules R59, R60); `other` is any selector outside the ten (rule R73). No opcode reaches MOD, AND, OR, XOR,
NOT, SHL, SHR or `other` (rule R61). -/
inductive AluOp where
  | add | mul | mod | and | or | xor | not | shl | shr | cmp | other
  deriving DecidableEq, Repr

/-- A natural number reduced modulo 256 (rules R11, R62). -/
def narrow (n : Nat) : Byte := BitVec.ofNat 8 n

/-- `ALU(op, a, b)`: both operands are read before anything is written; the effect is on `x[a]`, or on `FL.E` for CMP, and on nothing else
(rules R59, R60, R62). -/
def alu (op : AluOp) (a b : Reg) (s : State) : Except Fault State :=
  let va := s.reg a
  let vb := s.reg b
  match op with
  | .add => .ok (s.setReg a (narrow (va.toNat + vb.toNat)))
  | .mul => .ok (s.setReg a (narrow (va.toNat * vb.toNat)))
  | .mod => if vb = 0x00#8 then .error .divisionByZero else .ok (s.setReg a (narrow (va.toNat % vb.toNat)))
  | .and => .ok (s.setReg a (va &&& vb))
  | .or => .ok (s.setReg a (va ||| vb))
  | .xor => .ok (s.setReg a (va ^^^ vb))
  | .not => .ok (s.setReg a (va ^^^ 0xFF#8))
  | .shl => .ok (s.setReg a (narrow (va.toNat <<< 1)))
  | .shr => .ok (s.setReg a (narrow (va.toNat >>> 1)))
  | .cmp => .ok (s.setE (equalFlag va vb))
  | .other => .error .unsupportedOperation

/-- ADD a, b (rule R74). -/
def execAdd (a b : Reg) (s : State) : Result := sequential 2 (alu .add a b) s

/-- MUL a, b (rule R75). -/
def execMul (a b : Reg) (s : State) : Result := sequential 2 (alu .mul a b) s

/-- CMP a, b (rule R76). -/
def execCmp (a b : Reg) (s : State) : Result := sequential 2 (alu .cmp a b) s

end Sys2Proof.Machine
end

