-- ==== Sys2Proof/Machine/Stack.lean ====
section
/-! DEFINITION. The stack instructions PUSH and POP (rules R80 to R84): a full, descending stack of bytes addressed through R7. -/

namespace Sys2Proof.Machine

/-- A push: decrement R7, then write at the new R7 the value that `value` reads from the state after the decrement (rule R80). -/
def pushWith (value : State → Byte) (s : State) : State :=
  let s1 := s.decSp
  s1.storeByte s1.sp (value s1)

/-- PUSH r: `x[r]` is read after the decrement, so `PUSH R7` pushes the decremented stack pointer (rule R81, the spec's decision D9).
UNVERIFIED, unsafe: log entry 8. -/
def execPush (r : Reg) (s : State) : Result := sequential 1 (fun s => .ok (pushWith (fun s1 => s1.reg r) s)) s

/-- POP r: `x[r]` is written before the increment, so `POP R7` leaves the popped byte plus one (rule R82, the spec's decision D9).
UNVERIFIED, unsafe: log entry 8. -/
def execPop (r : Reg) (s : State) : Result := sequential 1 (fun s => .ok (s.setReg r (s.loadByte s.sp)).incSp) s

end Sys2Proof.Machine
end

