-- ==== Sys2Proof/Machine/Control.lean ====
section
/-! DEFINITION. The control transfer instructions CALL, RET, JMP, JNE and JEQ (rules R85 to R90). Targets are absolute; the "minus 1" of the
source's wording never appears (rule R57, conflicts C1 and C2). -/

namespace Sys2Proof.Machine

/-- `pc <- x[r]` (rules R57, R85). -/
def jumpTo (r : Reg) (s : State) : Result := .next (s.setPc (s.reg r))

/-- CALL r: push `pc + 2`, then jump to `x[r]` as it is after the push (rule R86; `CALL R7` rests on the spec's decision D9). UNVERIFIED,
unsafe: log entry 8. -/
def execCall (r : Reg) (s : State) : Result :=
  match returnAddress s with
  | .error f => raise f s
  | .ok ret => jumpTo r (pushWith (fun _ => ret) s)

/-- RET: pop the program counter; nothing is added to the byte and nothing can fault (rule R87). -/
def execRet (s : State) : Result :=
  let t := s.loadByte s.sp
  .next (s.incSp.setPc t)

/-- JMP r (rule R88). -/
def execJmp (r : Reg) (s : State) : Result := jumpTo r s

/-- JNE r: a jump when `FL.E` is clear, else the sequential successor (rule R89). -/
def execJne (r : Reg) (s : State) : Result := if s.flE = false then jumpTo r s else sequential 1 .ok s

/-- JEQ r: a jump when `FL.E` is set, else the sequential successor (rule R90). -/
def execJeq (r : Reg) (s : State) : Result := if s.flE = true then jumpTo r s else sequential 1 .ok s

end Sys2Proof.Machine
end

