-- ==== Sys2Proof/Machine/System.lean ====
section
/-! DEFINITION. The system instructions PRN and HLT (rules R91 to R94). -/

namespace Sys2Proof.Machine

/-- PRN r: `Out(x[r])` (rules R91, R92). -/
def execPrn (r : Reg) (s : State) : Result := sequential 1 (fun s => .ok (s.emit (s.reg r))) s

/-- HLT: `run <- Halted`; pc stays at the HLT byte (rule R93, the spec's decision D8). UNVERIFIED, unsafe: log entry 10. -/
def execHlt (s : State) : Result := .next s.halt

end Sys2Proof.Machine
end

