-- ==== Sys2Proof/Machine/Transfer.lean ====
section
/-! DEFINITION. The data transfer instructions LDI and ST (rules R77, R78). -/

namespace Sys2Proof.Machine

/-- LDI r, v: `x[r] <- v`, unchanged (rules R40, R77). -/
def execLdi (r : Reg) (v : Byte) (s : State) : Result := sequential 2 (fun s => .ok (s.setReg r v)) s

/-- ST d, s: `MEM[x[d]] <- x[s]` (rule R78). -/
def execSt (d src : Reg) (s : State) : Result := sequential 2 (fun s => .ok (s.storeByte (s.reg d) (s.reg src))) s

end Sys2Proof.Machine
end

