-- ==== Sys2Proof/Machine/Step.lean ====
section
/-! DEFINITION. One step of the machine (rule R50), and the host's way to place an instruction where the next step fetches. -/

namespace Sys2Proof.Machine

/-- One step: while Running, load IR, fetch, and run the instruction or raise the fetch's fault (rule R50); otherwise nothing changes
(rules R18, R56). -/
def step (s : State) : Host.Outcome State Fault Refusal :=
  match s.run with
  | .running =>
    match fetch s with
    | .ok i => exec i (s.setIr (fetchOpcode s))
    | .error f => raise f (s.setIr (fetchOpcode s))
  | .halted => stayStopped s
  | .faulted => stayStopped s

/-- The bytes that fit below the top of memory, written from address `a` up. -/
def State.placeBelowTop (s : State) (a : Nat) (bs : List Byte) : State := placeBytes s a (bs.take (Config.memSize - a))

/-- `s` with an opcode-table word stored at `pc`, over the three bytes of the longest instruction as far as they exist, and Running, so that
the next step fetches it. DESIGN CHOICE: log entry 19. -/
def State.withFetchWord (s : State) (nbits w : Nat) : State :=
  { s.placeBelowTop s.pc.toNat (tableBytes nbits w 3) with run := .running }

end Sys2Proof.Machine
end

