-- ==== Sys2Proof/Safety.lean ====
section
/-! DEFINITION. What counts as a clean end of a run (rule R103), and the invariant of the machine: memory is canonical, and the run state, the
fault record, IR and the byte at pc agree with one another (rules R18, R20, R93, R101). -/

namespace Sys2Proof.Machine

/-- The end of a run that counts as success (rules R58, R103). -/
def State.EndedCleanly (s : State) : Prop := s.run = .halted

/-- No fault has been recorded: FCAUSE, FPC and FOP are zero (rule R20). -/
def State.NoRecord (s : State) : Prop := s.fcause = 0#3 ∧ s.fpc = 0x00#8 ∧ s.fop = 0x00#8

/-- A fault a program can raise is recorded, with the address and the opcode byte of the instruction that pc still points at (rules R20, R61,
R101). -/
def State.RecordsFault (s : State) : Prop :=
  (s.fcause = Fault.invalidAddress.code ∨ s.fcause = Fault.illegalInstruction.code) ∧ s.fpc = s.pc ∧ s.fop = s.mem.read s.pc.toNat ∧
    s.ir = s.fop

/-- pc is at the HLT byte that was executed (rule R93). -/
def State.AtHlt (s : State) : Prop := s.ir = 0x01#8 ∧ s.mem.read s.pc.toNat = 0x01#8

/-- What the run state promises about the rest of the state. -/
def State.RunStateOk (s : State) : Prop :=
  match s.run with
  | .running => s.NoRecord
  | .halted => s.NoRecord ∧ s.AtHlt
  | .faulted => s.RecordsFault

/-- The invariant that every step keeps. -/
def State.Inv (s : State) : Prop := s.mem.wf = true ∧ s.RunStateOk

end Sys2Proof.Machine
end

