-- ==== Sys2Proof/Certificates/Slice0/Obligations.lean ====
section
/-! DEFINITION. The statements for the provers, each a rule of the spec about the machine, and the few predicates they are written with. Where
a clause rests on a decision the spec marks as its own (D1 to D20 of 92_eei_decisions.md) or on a choice of the model, the docstring names it. -/

open Sys2Proof Sys2Proof.Machine

/-! ### What a statement says is unchanged -/

/-- Every register outside `except` keeps its value. -/
def Sys2Proof.Claims.RegsKept (except : List Reg) (s t : State) : Prop := ∀ q, q ∉ except → t.reg q = s.reg q

/-- Every byte of memory at an address outside `except` keeps its value. -/
def Sys2Proof.Claims.MemKept (except : List Byte) (s t : State) : Prop := ∀ a : Byte, a ∉ except → t.loadByte a = s.loadByte a

/-- The run state, the fault record and IR keep their values. -/
def Sys2Proof.Claims.ControlKept (s t : State) : Prop :=
  t.run = s.run ∧ t.fcause = s.fcause ∧ t.fpc = s.fpc ∧ t.fop = s.fop ∧ t.ir = s.ir

/-- Where a form of an instruction stores its one byte, by the expression its meaning uses: ST at `x[d]`, PUSH and CALL at the decremented
stack pointer. -/
def Sys2Proof.Claims.storeAddress (i : Instr) (s : State) : Option Byte :=
  match i with
  | .st d _ => some (s.reg d)
  | .push _ => some s.decSp.sp
  | .call _ => some s.decSp.sp
  | .hlt | .ret | .pop _ | .prn _ | .jmp _ | .jeq _ | .jne _ | .ldi _ _ | .add _ _ | .mul _ _ | .cmp _ _ => none

/-- The byte of `s` at a natural-number address. -/
def Sys2Proof.Claims.byteAt (s : State) (a : Nat) : Byte := s.mem.read a

open Sys2Proof.Claims

/-! ### Reset and boot -/

/-- Rule R113: whatever image is placed, execution enters at address 0, Running; and the first step loads IR with the byte at address 0. -/
def Obligations.EntryPointIsAddressZero : Prop :=
  ∀ image s, State.boot image = some s → s.pc = 0x00#8 ∧ s.run = .running ∧ ∀ t, step s = .next t → t.ir = byteAt s 0

/-- The table of rule R24 at State.reset. R7, pc, run and memory are stated by the source; R0 to R6 and FL rest on the spec's decision D6, the
fault record on D4, OUT on D11; IR's zero is the model's own choice (log entry 6). -/
def Obligations.ResetLeavesTheTabledValues : Prop :=
  State.reset.reg 7#3 = 0xF4#8 ∧ (∀ r : Reg, r ≠ 7#3 → State.reset.reg r = 0x00#8) ∧ State.reset.pc = 0x00#8 ∧ State.reset.fl = 0x00#8 ∧
    State.reset.run = .running ∧ (∀ a, byteAt State.reset a = 0x00#8) ∧
    State.reset.status = { run := .running, fcause := 0#3, fpc := 0x00#8, fop := 0x00#8 } ∧ State.reset.ir = 0x00#8 ∧ State.reset.out = []

/-- Rule R114: an image of at most 256 bytes stands at the addresses from 0, and every cell past it is zero. -/
def Obligations.BootPlacesTheImageFromAddressZero : Prop :=
  ∀ image : List Byte, image.length ≤ 256 → ∃ s, State.boot image = some s ∧
    (∀ (a : Nat) (h : a < image.length), byteAt s a = image[a]) ∧ (∀ a : Nat, image.length ≤ a → a ≤ 255 → byteAt s a = 0x00#8)

/-- Rule R112 with R24: booting changes nothing of the reset state but memory; and an image longer than 256 bytes is refused, which is the
model's choice (log entry 14). -/
def Obligations.BootChangesMemoryAlone : Prop :=
  (∀ image s, State.boot image = some s → RegsKept [] State.reset s ∧ s.pc = State.reset.pc ∧ s.flE = State.reset.flE ∧
    ControlKept State.reset s ∧ s.out = State.reset.out) ∧
  (∀ image : List Byte, 256 < image.length → State.boot image = none)

/-! ### Encoding -/

/-- Every instruction, with every operand value, decodes from its own bytes, whatever bytes follow. -/
def Obligations.DecodeOfEncodeIsTheInstruction : Prop := ∀ (i : Instr) (rest : List Byte), decode (encode i ++ rest) = .ok (i, rest)

/-- Every byte sequence that decodes is the encoding of what it decodes to, followed by the bytes left over: no bit is ignored. -/
def Obligations.DecodedBytesAreTheEncoding : Prop :=
  ∀ (bs rest : List Byte) (i : Instr), decode bs = .ok (i, rest) → bs = encode i ++ rest

/-- The decoder accepts exactly the sequences that begin with a recognised opcode, have all its operand bytes, and have zeros in bits 7:3 of
every register operand byte. The last condition rests on the spec's decision D5. -/
def Obligations.DecodeAcceptsExactlyWellFormedBytes : Prop :=
  ∀ bs, (∃ i rest, decode bs = .ok (i, rest)) ↔ WellFormed.bytesOk bs = true

/-- Rule R41: the operands of the two-operand instructions stand in memory in the order of the table, and the source's worked example decodes to
its three instructions. -/
def Obligations.OperandsStandInTheTableOrder : Prop :=
  (∀ (a b : Reg) (rest : List Byte),
    decode (0xA0#8 :: regByte a :: regByte b :: rest) = .ok (.add a b, rest) ∧
    decode (0xA2#8 :: regByte a :: regByte b :: rest) = .ok (.mul a b, rest) ∧
    decode (0xA7#8 :: regByte a :: regByte b :: rest) = .ok (.cmp a b, rest)) ∧
  (∀ (d src : Reg) (rest : List Byte), decode (0x84#8 :: regByte d :: regByte src :: rest) = .ok (.st d src, rest)) ∧
  (∀ (r : Reg) (v : Byte) (rest : List Byte), decode (0x82#8 :: regByte r :: v :: rest) = .ok (.ldi r v, rest)) ∧
  (∀ r : Reg, (regByte r).toNat = r.toNat) ∧
  (decode [0x82#8, 0x00#8, 0x08#8, 0x47#8, 0x00#8, 0x01#8] = .ok (.ldi 0#3 8#8, [0x47#8, 0x00#8, 0x01#8]) ∧
    decode [0x47#8, 0x00#8, 0x01#8] = .ok (.prn 0#3, [0x01#8]) ∧ decode [0x01#8] = .ok (.hlt, []))

/-- Rule R43's observation, for every instruction: bits 7:6 of the opcode byte are the operand count, bit 5 marks the three ALU instructions,
bit 4 the five that may overwrite pc. -/
def Obligations.OpcodeBitsShowTheirClasses : Prop :=
  ∀ i : Instr, (i.opcode.byte.extractLsb' 6 2).toNat + 1 = (encode i).length ∧
    (i.opcode.byte.getLsbD 5 = true ↔ i.opcode = .add ∨ i.opcode = .mul ∨ i.opcode = .cmp) ∧
    (i.opcode.byte.getLsbD 4 = true ↔
      i.opcode = .call ∨ i.opcode = .ret ∨ i.opcode = .jmp ∨ i.opcode = .jeq ∨ i.opcode = .jne)

/-- Words written out from the opcode table's bit patterns, at least one of every family. -/
def Obligations.KnownWordsDecode : Prop :=
  decode [0b10000010#8, 0b00000000#8, 0b00001000#8] = .ok (.ldi 0#3 8#8, []) ∧
  decode [0b10000100#8, 0b00000101#8, 0b00000110#8] = .ok (.st 5#3 6#3, []) ∧
  decode [0b10100000#8, 0b00000001#8, 0b00000010#8] = .ok (.add 1#3 2#3, []) ∧
  decode [0b01000101#8, 0b00000011#8] = .ok (.push 3#3, []) ∧
  decode [0b01010110#8, 0b00000100#8] = .ok (.jne 4#3, []) ∧
  decode [0b01000111#8, 0b00000111#8] = .ok (.prn 7#3, []) ∧
  decode [0b00000001#8] = .ok (.hlt, [])

/-! ### The step -/

/-- Rule R50: when the bytes at pc decode to an instruction, the step is exec of it, with IR loaded with the opcode byte first. -/
def Obligations.StepRunsTheDecodedInstruction : Prop :=
  ∀ (s : State) (i : Instr) (rest : List Byte), s.run = .running → decode (bytesFrom s s.pc.toNat 3) = .ok (i, rest) →
    step s = exec i (s.setIr (s.loadByte s.pc))

/-- The same from the encoder's side: an instruction whose bytes lie in memory from pc, all below 256, is what the step runs. The bound rests
on the spec's decision D2. -/
def Obligations.StepRunsTheEncodedInstruction : Prop :=
  ∀ (s : State) (i : Instr), s.run = .running → s.pc.toNat + (encode i).length ≤ 256 →
    (∀ (k : Nat) (h : k < (encode i).length), byteAt s (s.pc.toNat + k) = (encode i)[k]) →
    step s = exec i (s.setIr i.opcode.byte)

/-- Rules R50, R53, R97, R102: the checks of fetching and their order, and the fault each raises. The order rests on the spec's decision D13,
the faults on D2 and D5, the fault record on D3 and D4. -/
def Obligations.FetchChecksRaiseTheirFaultsInOrder : Prop :=
  ∀ s : State, s.run = .running →
    match WellFormed.operandCount (s.loadByte s.pc) with
    | none => step s = .next ((s.setIr (s.loadByte s.pc)).enterFault .illegalInstruction)
    | some n =>
      if 255 < s.pc.toNat + n then step s = .next ((s.setIr (s.loadByte s.pc)).enterFault .invalidAddress)
      else if ∃ k, k < WellFormed.regOperandCount (s.loadByte s.pc) ∧ 7 < (byteAt s (s.pc.toNat + 1 + k)).toNat then
        step s = .next ((s.setIr (s.loadByte s.pc)).enterFault .illegalInstruction)
      else ∃ i, encode i = (List.range (n + 1)).map (fun k => byteAt s (s.pc.toNat + k)) ∧ step s = exec i (s.setIr (s.loadByte s.pc))

/-- What taking a fault does, to every part of the state. Rule R101 gives FOP as the opcode byte of the faulting step; that FOP is IR, whatever IR
holds in an arbitrary state, is the model's inference from R19 (10_state.md section 6; log entry 17, DEDUCED), and
`Obligations.FaultsArePrecise` gives the byte at the level of the step. The Faulted state and the record rest on the spec's decisions D3, D4. -/
def Obligations.FaultEntryWritesTheRecordAlone : Prop :=
  ∀ (f : Fault) (s : State), (s.enterFault f).status = { run := .faulted, fcause := f.code, fpc := s.pc, fop := s.ir } ∧
    (f = .invalidAddress → f.code = 1#3) ∧ (f = .illegalInstruction → f.code = 2#3) ∧ (f = .unsupportedOperation → f.code = 3#3) ∧
    (f = .divisionByZero → f.code = 4#3) ∧
    RegsKept [] s (s.enterFault f) ∧ (s.enterFault f).pc = s.pc ∧ (s.enterFault f).fl = s.fl ∧ MemKept [] s (s.enterFault f) ∧
    (s.enterFault f).ir = s.ir ∧ (s.enterFault f).out = s.out

/-- Rules R18, R56: a machine that is Halted or Faulted never changes, however often it is stepped. That its step answers the same state is
the model's rendering of "no step is taken" (log entry 1). -/
def Obligations.StoppedMachineNeverChanges : Prop :=
  ∀ (n : Nat) (s : State), s.run ≠ .running → core.run n s = .next s

/-- From every state, any number of steps answers a next state. Rule R119 says it of a Running machine alone, and R56 gives a Halted or Faulted
one no step: that its step answers a next state is the model's choice (log entry 1, DEDUCED), and that raising a fault is a next state, where
R101 gives only what it writes, is the model's too (log entry 2, DESIGN CHOICE). -/
def Obligations.EveryRunAnswersANextState : Prop := ∀ (n : Nat) (s : State), ∃ t, core.run n s = .next t

/-- Rule R50, whole, as one function on raw bytes, apart from the decoder and the meanings: the body that each opcode byte selects. -/
def Sys2Proof.Claims.pseudoBody (op o1 o2 : Byte) (s : State) : State :=
  let p := s.pc.toNat
  let r1 : Reg := o1.extractLsb' 0 3
  let r2 : Reg := o2.extractLsb' 0 3
  let invalid := { s with run := .faulted, fcause := 1#3, fpc := s.pc, fop := op }
  let next (n : Nat) (t : State) : State := if 255 < p + n + 1 then invalid else { t with pc := BitVec.ofNat 8 (p + n + 1) }
  let down := s.setReg 7#3 (s.reg 7#3 - 1#8)
  if op = 0x82#8 then next 2 (s.setReg r1 o2)
  else if op = 0x84#8 then next 2 { s with mem := s.mem.write (s.reg r1).toNat (s.reg r2) }
  else if op = 0xA0#8 then next 2 (s.setReg r1 (s.reg r1 + s.reg r2))
  else if op = 0xA2#8 then next 2 (s.setReg r1 (s.reg r1 * s.reg r2))
  else if op = 0xA7#8 then next 2 { s with flE := decide (s.reg r1 = s.reg r2) }
  else if op = 0x45#8 then next 1 { down with mem := s.mem.write (down.reg 7#3).toNat (down.reg r1) }
  else if op = 0x46#8 then
    next 1 ((s.setReg r1 (s.mem.read (s.reg 7#3).toNat)).setReg 7#3 ((s.setReg r1 (s.mem.read (s.reg 7#3).toNat)).reg 7#3 + 1#8))
  else if op = 0x47#8 then next 1 { s with out := s.out ++ [s.reg r1] }
  else if op = 0x50#8 then
    if 255 < p + 2 then invalid
    else { down with mem := s.mem.write (down.reg 7#3).toNat (BitVec.ofNat 8 (p + 2)), pc := down.reg r1 }
  else if op = 0x11#8 then { s.setReg 7#3 (s.reg 7#3 + 1#8) with pc := s.mem.read (s.reg 7#3).toNat }
  else if op = 0x54#8 then { s with pc := s.reg r1 }
  else if op = 0x55#8 then if s.flE = true then { s with pc := s.reg r1 } else next 1 s
  else if op = 0x56#8 then if s.flE = true then next 1 s else { s with pc := s.reg r1 }
  else s

/-- Rule R50, whole, as one function on raw bytes: the loop. -/
def Sys2Proof.Claims.pseudoStep (s : State) : State :=
  let p := s.pc.toNat
  let op := byteAt s p
  let s1 := { s with ir := op }
  let o1 := byteAt s (p + 1)
  let o2 := byteAt s (p + 2)
  let illegal := { s1 with run := .faulted, fcause := 2#3, fpc := s.pc, fop := op }
  if op = 0x01#8 then { s1 with run := .halted }
  else if op ∈ WellFormed.opcodesN then pseudoBody op o1 o2 s1
  else if op ∈ WellFormed.opcodesR then
    if 255 < p + 1 then { s1 with run := .faulted, fcause := 1#3, fpc := s.pc, fop := op }
    else if 7 < o1.toNat then illegal
    else pseudoBody op o1 o2 s1
  else if op ∈ WellFormed.opcodesRI ∨ op ∈ WellFormed.opcodesRR then
    if 255 < p + 2 then { s1 with run := .faulted, fcause := 1#3, fpc := s.pc, fop := op }
    else if 7 < o1.toNat then illegal
    else if op ∈ WellFormed.opcodesRR ∧ 7 < o2.toNat then illegal
    else pseudoBody op o1 o2 s1
  else illegal

/-- A step of a running machine, by decoder, dispatch and meanings, is the loop of rule R50 written on raw bytes with the instructions' own
pseudocode: an equivalence of two designs. Its faults, their order and the R7 corner cases rest on the spec's decisions D2 to D5, D8, D9, D13. -/
def Obligations.StepIsThePseudocodeOfTheSpec : Prop := ∀ s : State, s.run = .running → step s = .next (pseudoStep s)

/-! ### Data transfer -/

/-- LDI: the immediate as it stands, every other piece of state kept. -/
def Obligations.LdiLoadsTheImmediate : Prop :=
  ∀ (r : Reg) (v : Byte) (s : State), s.pc.toNat + 3 ≤ 255 → ∃ t, exec (.ldi r v) s = .next t ∧ t.reg r = v ∧
    t.pc.toNat = s.pc.toNat + 3 ∧ RegsKept [r] s t ∧ t.flE = s.flE ∧ MemKept [] s t ∧ t.out = s.out ∧ ControlKept s t

/-- ST: the cell at `x[d]` receives `x[src]`, every other cell and every register kept. -/
def Obligations.StStoresTheRegister : Prop :=
  ∀ (d src : Reg) (s : State), s.pc.toNat + 3 ≤ 255 → ∃ t, exec (.st d src) s = .next t ∧ t.loadByte (s.reg d) = s.reg src ∧
    MemKept [s.reg d] s t ∧ t.pc.toNat = s.pc.toNat + 3 ∧ RegsKept [] s t ∧ t.flE = s.flE ∧ t.out = s.out ∧ ControlKept s t

/-! ### The ALU and its instructions -/

/-- An ALU result goes to register `a` alone: no other register and not the flag. -/
def Sys2Proof.Claims.WritesOnlyReg (a : Reg) (s t : State) : Prop := RegsKept [a] s t ∧ t.flE = s.flE

/-- Rule R60: the ten operations, their results as natural numbers or bit by bit, and what each writes, for every pair of registers, `a = b`
included; MOD by zero is the one that fails. -/
def Obligations.AluHasItsTenOperations : Prop :=
  ∀ (a b : Reg) (s : State),
    (∃ t, alu .add a b s = .ok t ∧ (t.reg a).toNat = ((s.reg a).toNat + (s.reg b).toNat) % 256 ∧ WritesOnlyReg a s t) ∧
    (∃ t, alu .mul a b s = .ok t ∧ (t.reg a).toNat = ((s.reg a).toNat * (s.reg b).toNat) % 256 ∧ WritesOnlyReg a s t) ∧
    ((s.reg b).toNat ≠ 0 →
      ∃ t, alu .mod a b s = .ok t ∧ (t.reg a).toNat = (s.reg a).toNat % (s.reg b).toNat ∧ WritesOnlyReg a s t) ∧
    ((s.reg b).toNat = 0 → alu .mod a b s = .error .divisionByZero) ∧
    (∃ t, alu .and a b s = .ok t ∧ t.reg a = s.reg a &&& s.reg b ∧ WritesOnlyReg a s t) ∧
    (∃ t, alu .or a b s = .ok t ∧ t.reg a = s.reg a ||| s.reg b ∧ WritesOnlyReg a s t) ∧
    (∃ t, alu .xor a b s = .ok t ∧ t.reg a = s.reg a ^^^ s.reg b ∧ WritesOnlyReg a s t) ∧
    (∃ t, alu .not a b s = .ok t ∧ t.reg a = s.reg a ^^^ 0xFF#8 ∧ (t.reg a).toNat = 255 - (s.reg a).toNat ∧ WritesOnlyReg a s t) ∧
    (∃ t, alu .shl a b s = .ok t ∧ (t.reg a).toNat = (2 * (s.reg a).toNat) % 256 ∧ WritesOnlyReg a s t) ∧
    (∃ t, alu .shr a b s = .ok t ∧ (t.reg a).toNat = (s.reg a).toNat / 2 ∧ WritesOnlyReg a s t) ∧
    (∃ t, alu .cmp a b s = .ok t ∧ (t.flE = true ↔ s.reg a = s.reg b) ∧ RegsKept [] s t)

/-- Rule R65: MOD is the unsigned remainder, below the divisor; a zero divisor is the DivisionByZero fault, never a value, and leaves no new
state at all. -/
def Obligations.AluModIsTheUnsignedRemainder : Prop :=
  ∀ (a b : Reg) (s : State),
    (s.reg b = 0x00#8 → alu .mod a b s = .error .divisionByZero) ∧
    (s.reg b ≠ 0x00#8 → ∃ t, alu .mod a b s = .ok t ∧ (t.reg a).toNat = (s.reg a).toNat % (s.reg b).toNat ∧
      (t.reg a).toNat < (s.reg b).toNat ∧ RegsKept [a] s t ∧ t.flE = s.flE ∧ MemKept [] s t ∧ t.pc = s.pc ∧ t.out = s.out ∧ ControlKept s t)

/-- Rule R59: whatever the operation, the ALU touches neither memory nor pc nor anything but `x[a]`, or the flag for CMP. -/
def Obligations.AluWritesOneRegisterOrTheFlag : Prop :=
  ∀ (op : AluOp) (a b : Reg) (s t : State), alu op a b s = .ok t →
    RegsKept (if op = .cmp then [] else [a]) s t ∧ (op ≠ .cmp → t.flE = s.flE) ∧ MemKept [] s t ∧ t.pc = s.pc ∧ t.out = s.out ∧
    ControlKept s t

/-- Rule R59: the result depends on the operation and the two register values alone: two states that agree on them give the same value, flag or
fault. -/
def Obligations.AluDependsOnTheTwoValuesAlone : Prop :=
  ∀ (op : AluOp) (a b : Reg) (s u : State), s.reg a = u.reg a → s.reg b = u.reg b →
    match alu op a b s with
    | .error f => alu op a b u = .error f
    | .ok t => ∃ w, alu op a b u = .ok w ∧ w.reg a = t.reg a ∧ (op = .cmp → w.flE = t.flE)

/-- Rule R73: any selector outside the ten faults and reads or writes nothing. -/
def Obligations.OtherAluSelectorIsUnsupported : Prop :=
  ∀ (op : AluOp) (a b : Reg) (s : State), alu op a b s = .error .unsupportedOperation ↔ op = .other

/-- ADD: the sum modulo 256 in `x[a]`, FL left alone, every other piece of state kept; `a = b` and R7 included. -/
def Obligations.AddWrapsModulo256 : Prop :=
  ∀ (a b : Reg) (s : State), s.pc.toNat + 3 ≤ 255 → ∃ t, exec (.add a b) s = .next t ∧
    (t.reg a).toNat = ((s.reg a).toNat + (s.reg b).toNat) % 256 ∧ t.pc.toNat = s.pc.toNat + 3 ∧ RegsKept [a] s t ∧ t.flE = s.flE ∧
    MemKept [] s t ∧ t.out = s.out ∧ ControlKept s t

/-- MUL: the low byte of the product in `x[a]`, FL left alone, every other piece of state kept; `a = b` and R7 included. -/
def Obligations.MulKeepsTheLowByte : Prop :=
  ∀ (a b : Reg) (s : State), s.pc.toNat + 3 ≤ 255 → ∃ t, exec (.mul a b) s = .next t ∧
    (t.reg a).toNat = ((s.reg a).toNat * (s.reg b).toNat) % 256 ∧ t.pc.toNat = s.pc.toNat + 3 ∧ RegsKept [a] s t ∧ t.flE = s.flE ∧
    MemKept [] s t ∧ t.out = s.out ∧ ControlKept s t

/-- CMP: the flag is set when the registers are equal and cleared when they differ; no register changes. -/
def Obligations.CmpSetsTheFlagExactlyOnEquality : Prop :=
  ∀ (a b : Reg) (s : State), s.pc.toNat + 3 ≤ 255 → ∃ t, exec (.cmp a b) s = .next t ∧
    t.fl = (if s.reg a = s.reg b then 0x01#8 else 0x00#8) ∧ t.pc.toNat = s.pc.toNat + 3 ∧ RegsKept [] s t ∧ MemKept [] s t ∧
    t.out = s.out ∧ ControlKept s t

/-- The source's testable properties of ADD and MUL after two LDIs into different registers (95 S3 a and b). -/
def Obligations.LdiLdiThenAddOrMul : Prop :=
  ∀ (a b : Reg) (x y : Byte) (s : State), a ≠ b → s.pc.toNat + 9 ≤ 255 →
    ∃ t u, exec (.ldi a x) s = .next t ∧ exec (.ldi b y) t = .next u ∧
      (∃ v, exec (.add a b) u = .next v ∧ (v.reg a).toNat = (x.toNat + y.toNat) % 256) ∧
      (∃ v, exec (.mul a b) u = .next v ∧ (v.reg a).toNat = (x.toNat * y.toNat) % 256)

/-! ### The stack -/

/-- PUSH: R7 goes down by one modulo 256 and the cell there receives the register. For R7 itself the value is the decremented one, by the
spec's decision D9; that nothing checks R7 is D10. -/
def Obligations.PushDecrementsThenStores : Prop :=
  ∀ (r : Reg) (s : State), s.pc.toNat + 2 ≤ 255 → ∃ t, exec (.push r) s = .next t ∧ t.sp = s.sp - 1#8 ∧
    t.loadByte s.decSp.sp = (if r = 7#3 then s.sp - 1#8 else s.reg r) ∧ MemKept [s.decSp.sp] s t ∧ t.pc.toNat = s.pc.toNat + 2 ∧
    RegsKept [7#3] s t ∧ t.flE = s.flE ∧ t.out = s.out ∧ ControlKept s t

/-- POP: the register receives the byte at R7, then R7 goes up by one modulo 256; the cell keeps its value. For R7 itself the result is the
popped byte plus one, by the spec's decision D9; that nothing checks R7 is D10. -/
def Obligations.PopLoadsThenIncrements : Prop :=
  ∀ (r : Reg) (s : State), s.pc.toNat + 2 ≤ 255 → ∃ t, exec (.pop r) s = .next t ∧
    t.sp = (if r = 7#3 then s.loadByte s.sp + 1#8 else s.sp + 1#8) ∧ (r ≠ 7#3 → t.reg r = s.loadByte s.sp) ∧
    t.pc.toNat = s.pc.toNat + 2 ∧ RegsKept [r, 7#3] s t ∧ MemKept [] s t ∧ t.flE = s.flE ∧ t.out = s.out ∧ ControlKept s t

/-- Rule R83: PUSH then POP copies the value and restores the stack pointer, for registers other than R7, wrap included. -/
def Obligations.PushThenPopCopiesAndRestores : Prop :=
  ∀ (r q : Reg) (s : State), r ≠ 7#3 → q ≠ 7#3 → s.pc.toNat + 4 ≤ 255 →
    ∃ t u, exec (.push r) s = .next t ∧ exec (.pop q) t = .next u ∧ u.reg q = s.reg r ∧ u.reg 7#3 = s.reg 7#3

/-! ### Control transfer -/

/-- CALL: the return address `pc + 2` is pushed and control goes to the register's value, for R7 to its decremented value by the spec's
decision D9. The bound on the return address is D2. -/
def Obligations.CallPushesTheReturnAddress : Prop :=
  ∀ (r : Reg) (s : State), s.pc.toNat + 2 ≤ 255 → ∃ t, exec (.call r) s = .next t ∧ t.sp = s.sp - 1#8 ∧
    (t.loadByte s.decSp.sp).toNat = s.pc.toNat + 2 ∧ MemKept [s.decSp.sp] s t ∧ t.pc = (if r = 7#3 then s.sp - 1#8 else s.reg r) ∧
    RegsKept [7#3] s t ∧ t.flE = s.flE ∧ t.out = s.out ∧ ControlKept s t

/-- Rule R87, at the level of the step: the byte 0x11 at pc pops the program counter, from every state of a running machine and with no fault;
the cell keeps its value and nothing else changes but R7, pc and IR. -/
def Obligations.RetPopsTheProgramCounter : Prop :=
  decode [0b00010001#8] = .ok (.ret, []) ∧
  ∀ s : State, s.run = .running → s.loadByte s.pc = 0x11#8 → ∃ t, step s = .next t ∧ exec .ret (s.setIr 0x11#8) = .next t ∧
    t.pc = s.loadByte s.sp ∧ t.sp.toNat = (s.sp.toNat + 1) % 256 ∧ RegsKept [7#3] s t ∧ MemKept [] s t ∧ t.fl = s.fl ∧ t.out = s.out ∧
    t.status = s.status ∧ t.ir = 0x11#8

/-- RET by exec, in every state: it completes with no condition at all. -/
def Obligations.RetAlwaysCompletes : Prop :=
  ∀ s : State, ∃ t, exec .ret s = .next t ∧ t.pc = s.loadByte s.sp ∧ t.sp = s.sp + 1#8 ∧ RegsKept [7#3] s t ∧ MemKept [] s t ∧
    t.flE = s.flE ∧ t.out = s.out ∧ ControlKept s t

/-- JMP: pc becomes the register's value, zero included, with no condition on where the JMP stands. -/
def Obligations.JmpGoesToTheRegister : Prop :=
  ∀ (r : Reg) (s : State), ∃ t, exec (.jmp r) s = .next t ∧ t.pc = s.reg r ∧ RegsKept [] s t ∧ MemKept [] s t ∧ t.flE = s.flE ∧
    t.out = s.out ∧ ControlKept s t

/-- JEQ: with the flag set as JMP, with no condition on where it stands; with the flag clear pc advances past the operand, where that successor
exists (the spec's decision D2). Nothing else changes in either case. -/
def Obligations.JeqJumpsWhenTheFlagIsSet : Prop :=
  ∀ (r : Reg) (s : State),
    (s.flE = true → ∃ t, exec (.jeq r) s = .next t ∧ t.pc = s.reg r ∧ RegsKept [] s t ∧ MemKept [] s t ∧ t.flE = s.flE ∧ t.out = s.out ∧
      ControlKept s t) ∧
    (s.flE = false → s.pc.toNat + 2 ≤ 255 → ∃ t, exec (.jeq r) s = .next t ∧ t.pc.toNat = s.pc.toNat + 2 ∧ RegsKept [] s t ∧
      MemKept [] s t ∧ t.flE = s.flE ∧ t.out = s.out ∧ ControlKept s t)

/-- JNE: with the flag clear as JMP, with no condition on where it stands; with the flag set pc advances past the operand, where that successor
exists (the spec's decision D2). Nothing else changes in either case. -/
def Obligations.JneJumpsWhenTheFlagIsClear : Prop :=
  ∀ (r : Reg) (s : State),
    (s.flE = false → ∃ t, exec (.jne r) s = .next t ∧ t.pc = s.reg r ∧ RegsKept [] s t ∧ MemKept [] s t ∧ t.flE = s.flE ∧ t.out = s.out ∧
      ControlKept s t) ∧
    (s.flE = true → s.pc.toNat + 2 ≤ 255 → ∃ t, exec (.jne r) s = .next t ∧ t.pc.toNat = s.pc.toNat + 2 ∧ RegsKept [] s t ∧
      MemKept [] s t ∧ t.flE = s.flE ∧ t.out = s.out ∧ ControlKept s t)

/-- The source's round trip: a RET in any later state whose stack pointer and stack cell are as CALL left them goes to the address after CALL's
operand byte and restores the stack pointer. -/
def Obligations.CallThenRetRoundTrip : Prop :=
  ∀ (r : Reg) (s : State), s.pc.toNat + 2 ≤ 255 → ∃ t, exec (.call r) s = .next t ∧
    ∀ u : State, u.sp = t.sp → u.loadByte t.sp = t.loadByte t.sp →
      ∃ v, exec .ret u = .next v ∧ v.pc.toNat = s.pc.toNat + 2 ∧ v.sp = s.sp

/-- Rule R57, the net effect: where pc goes, for every instruction that completes; no "minus one" appears. HLT's line is the spec's decision
D8, CALL R7's is D9. -/
def Sys2Proof.Claims.pcTarget (i : Instr) (s : State) : Nat :=
  match i with
  | .hlt => s.pc.toNat
  | .ret => (s.loadByte s.sp).toNat
  | .jmp r => (s.reg r).toNat
  | .call r => if r = 7#3 then (s.sp - 1#8).toNat else (s.reg r).toNat
  | .jeq r => if s.flE then (s.reg r).toNat else s.pc.toNat + 2
  | .jne r => if s.flE then s.pc.toNat + 2 else (s.reg r).toNat
  | .push _ | .pop _ | .prn _ => s.pc.toNat + 2
  | .ldi _ _ | .st _ _ | .add _ _ | .mul _ _ | .cmp _ _ => s.pc.toNat + 3

/-- Rules R14, R57: an instruction that leaves the machine not Faulted leaves pc at its target. -/
def Obligations.PcGoesToTheTarget : Prop :=
  ∀ (i : Instr) (s t : State), s.run = .running → exec i s = .next t → t.run ≠ .faulted → t.pc.toNat = pcTarget i s

/-- Rules R54, R86, R96: the forms that raise InvalidAddress by themselves, each only where its successor or return address would be above 255,
and precisely. They rest on the spec's decision D2. -/
def Obligations.AddressAboveTheTopTraps : Prop :=
  ∀ (i : Instr) (s : State),
    (match i with
      | .ldi _ _ | .st _ _ | .add _ _ | .mul _ _ | .cmp _ _ => 255 < s.pc.toNat + 3
      | .push _ | .pop _ | .prn _ | .call _ => 255 < s.pc.toNat + 2
      | .jeq _ => s.flE = false ∧ 255 < s.pc.toNat + 2
      | .jne _ => s.flE = true ∧ 255 < s.pc.toNat + 2
      | .hlt | .ret | .jmp _ => False) →
    exec i s = .next (s.enterFault .invalidAddress)

/-! ### System -/

/-- PRN: OUT gains the register's byte at its end; nothing else changes but pc. -/
def Obligations.PrnAppendsTheByte : Prop :=
  ∀ (r : Reg) (s : State), s.pc.toNat + 2 ≤ 255 → ∃ t, exec (.prn r) s = .next t ∧ t.out = s.out ++ [s.reg r] ∧
    t.pc.toNat = s.pc.toNat + 2 ∧ RegsKept [] s t ∧ MemKept [] s t ∧ t.flE = s.flE ∧ ControlKept s t

/-- HLT: the run state becomes Halted and nothing else changes; that pc stays is the spec's decision D8. -/
def Obligations.HltHaltsAndChangesNothingElse : Prop :=
  ∀ s : State, ∃ t, exec .hlt s = .next t ∧ t.run = .halted ∧ t.pc = s.pc ∧ RegsKept [] s t ∧ MemKept [] s t ∧ t.flE = s.flE ∧
    t.out = s.out ∧ t.fcause = s.fcause ∧ t.fpc = s.fpc ∧ t.fop = s.fop ∧ t.ir = s.ir

/-- Rules R56, R58, R93: a running machine's step ends Halted exactly when the byte at pc is the HLT opcode. -/
def Obligations.OnlyTheHltOpcodeHalts : Prop :=
  ∀ s t : State, s.run = .running → step s = .next t → (t.run = .halted ↔ s.loadByte s.pc = 0x01#8)

/-! ### Rules about the whole machine -/

/-- Rule R16: no instruction but CMP changes the flag. -/
def Obligations.OnlyCmpWritesTheFlag : Prop :=
  ∀ (i : Instr) (s t : State), exec i s = .next t → (∀ a b, i ≠ .cmp a b) → t.fl = s.fl

/-- Rules R10, R29: whatever the instruction and however it ends, memory changes at the address it stores to and nowhere else, and an
instruction that stores nothing changes no byte. -/
def Obligations.MemoryChangesOnlyAtTheStoreAddress : Prop :=
  ∀ (i : Instr) (s t : State), exec i s = .next t → ∀ a : Byte, storeAddress i s ≠ some a → t.loadByte a = s.loadByte a

/-- Rule R10's table: the registers an instruction may write, and no others. -/
def Obligations.RegistersChangeOnlyAsTabled : Prop :=
  ∀ (i : Instr) (s t : State), exec i s = .next t →
    RegsKept (match i with
      | .ldi r _ => [r]
      | .add a _ => [a]
      | .mul a _ => [a]
      | .push _ | .call _ | .ret => [7#3]
      | .pop r => [r, 7#3]
      | .prn _ | .cmp _ _ | .jmp _ | .jeq _ | .jne _ | .st _ _ | .hlt => []) s t

/-- Rules R44, R55, R101: a step that ends a running machine Faulted changed no register, flag, byte of memory or output, left pc where it was,
and recorded that pc and the opcode byte there, with one of the two causes a program can reach. It rests on the spec's decisions D3 and D4. -/
def Obligations.FaultsArePrecise : Prop :=
  ∀ s t : State, s.run = .running → step s = .next t → t.run = .faulted →
    RegsKept [] s t ∧ t.pc = s.pc ∧ t.fl = s.fl ∧ MemKept [] s t ∧ t.out = s.out ∧ t.fpc = s.pc ∧ t.fop = s.loadByte s.pc ∧
    t.ir = s.loadByte s.pc ∧ (t.fcause = 1#3 ∨ t.fcause = 2#3)

/-- Rule R95: InvalidAddress is raised only by an instruction in the last three bytes of memory. It rests on the spec's decision D2. -/
def Obligations.InvalidAddressOnlyNearTheTop : Prop :=
  ∀ s t : State, s.run = .running → step s = .next t → t.run = .faulted → t.fcause = Fault.invalidAddress.code → 253 ≤ s.pc.toNat

/-- Rule R44: every opcode byte outside the table is illegal, wherever it stands, 0x00 among them, with no other effect than the fault; there are
14 bytes in the table and 242 outside it. -/
def Obligations.UnknownOpcodeIsIllegal : Prop :=
  (WellFormed.opcodes.length = 14 ∧ WellFormed.opcodes.Nodup ∧ 0x00#8 ∉ WellFormed.opcodes) ∧
  ∀ s : State, s.run = .running → s.loadByte s.pc ∉ WellFormed.opcodes → ∃ t, step s = .next t ∧
    t.status = { run := .faulted, fcause := 2#3, fpc := s.pc, fop := s.loadByte s.pc } ∧ RegsKept [] s t ∧ t.pc = s.pc ∧ t.fl = s.fl ∧
    MemKept [] s t ∧ t.out = s.out

/-- Rule R34: the byte a store, a push or a call has just written is what the next opcode fetch at its address reads. -/
def Obligations.FetchSeesTheStore : Prop :=
  ∀ (i : Instr) (s t : State) (a : Byte), s.run = .running → exec i s = .next t → t.run = .running → storeAddress i s = some a → t.pc = a →
    ∀ u, step t = .next u →
      u.ir = (match i with
        | .st _ src => s.reg src
        | .push r => s.decSp.reg r
        | _ => BitVec.ofNat 8 (s.pc.toNat + 2))

/-- Rule R21: OUT only grows, by one byte for a PRN and by nothing for any other instruction, over any number of steps. -/
def Obligations.OutputOnlyGrows : Prop :=
  ∀ (n : Nat) (s t : State), core.run n s = .next t → ∃ more : List Byte, t.out = s.out ++ more ∧ more.length ≤ n

/-- Rule R21: nothing reads OUT back: the same run with other bytes printed before it gives the same state, with those bytes before its own. -/
def Obligations.OutputIsNeverReadBack : Prop :=
  ∀ (n : Nat) (earlier : List Byte) (s t : State), core.run n s = .next t →
    core.run n { s with out := earlier ++ s.out } = .next { t with out := earlier ++ t.out }

/-- Rule R19: a running machine's step loads IR with the opcode byte, whatever IR held before makes no difference to it, and its one outward use
is as the source of FOP when a fault is raised. -/
def Obligations.InstructionRegisterIsUnobservable : Prop :=
  ∀ s : State, s.run = .running →
    (∀ x : Byte, step { s with ir := x } = step s) ∧ (∀ t, step s = .next t → t.ir = s.loadByte s.pc ∧ (t.run = .faulted → t.fop = t.ir))

/-- Every step keeps the invariant, from every state that has it: memory stays canonical; while Running no fault is recorded; when Halted, IR and
the byte at pc are HLT's; when Faulted, the record holds pc, the byte there and one of the two causes a program can reach. The run state's
clauses rest on the spec's decisions D3, D4 and D8; the canonical form of memory is the model's own (log entry 15, DEDUCED). -/
def Obligations.EveryStepKeepsTheInvariant : Prop := ∀ s t : State, s.Inv → step s = .next t → t.Inv

/-- The invariant holds after reset. The empty fault record is the spec's decision D4; the canonical form of memory is the model's own (log entry
15, DEDUCED). -/
def Obligations.ResetHasTheInvariant : Prop := State.reset.Inv

/-- The invariant holds after booting any image, and so after any number of steps from there. Its Halted and Faulted clauses are those of 10_state.md
section 6, 60_exceptions.md section 2 and 45_system.md, by the spec's decisions D3, D4 and D8. The canonical form of memory is log entry 15
(DEDUCED), the steps of a stopped machine log entry 1 (DEDUCED), the placing of an image log entry 14 (DESIGN CHOICE): the model's own. -/
def Obligations.EveryRunFromBootHasTheInvariant : Prop :=
  ∀ (image : List Byte) (s : State) (n : Nat) (t : State), State.boot image = some s → core.run n s = .next t → t.Inv

/-- Rule R26: the two memory primitives on natural-number addresses: in range they read and write one cell, out of range they raise
InvalidAddress; and an address held in a byte is in range. -/
def Obligations.MemoryPrimitivesCheckTheRange : Prop :=
  (∀ (s : State) (a : Nat), 255 < a → memRead s a = .error .invalidAddress ∧ ∀ v, memWrite s a v = .error .invalidAddress) ∧
  (∀ (s : State) (a : Nat), a ≤ 255 → memRead s a = .ok (byteAt s a) ∧
    ∀ v, ∃ t, memWrite s a v = .ok t ∧ memRead t a = .ok v ∧ ∀ b : Nat, b ≠ a → memRead t b = memRead s b) ∧
  (∀ (s : State) (a : Byte), memRead s a.toNat = .ok (s.loadByte a) ∧ ∀ v, memWrite s a.toNat v = .ok (s.storeByte a v))

/-- Memory as a list is canonical: two memories in canonical form that read the same at every address are equal; and so writing the value a cell
already holds changes nothing (rule R29). That memory is a list of cells is the model's choice (log entry 15). -/
def Obligations.EqualReadsMeanEqualMemories : Prop :=
  (∀ m n : Memory, m.wf = true → n.wf = true → (∀ a : Nat, m.read a = n.read a) → m = n) ∧
  (∀ (s : State) (a : Byte), s.mem.wf = true → s.storeByte a (s.loadByte a) = s)
end

