-- ==== Sys2Proof/Laws/Decode.lean ====
section
/-! SUPPORT. The decoder's small lemmas: opcode bytes and register operand bytes are each other's inverses. -/

namespace Sys2Proof

/-- The opcode a byte stands for has that byte (rule R38). -/
theorem Opcode.byte_of_ofByte {b : Byte} {o : Opcode} (h : Opcode.ofByte b = some o) : o.byte = b := by
  simpa using List.find?_some h

/-- Every opcode is found by its byte: no two opcodes share one (rule R42). -/
theorem Opcode.ofByte_byte (o : Opcode) : Opcode.ofByte o.byte = some o := by cases o <;> decide

/-- A register's operand byte names it (rule R39). -/
theorem regOperand_regByte (r : Reg) : regOperand (regByte r) = .ok r := by
  have : ∀ r : BitVec 3, regOperand (regByte r) = .ok r := by decide
  exact this r

/-- A byte that names a register is that register's operand byte: nothing is masked away (rule R39). -/
theorem regByte_of_regOperand {o : Byte} {r : Reg} (h : regOperand o = .ok r) : o = regByte r := by
  unfold regOperand at h
  split at h
  next hz =>
    cases h
    have split : ∀ o : BitVec 8, o = o.extractLsb' 3 5 ++ o.extractLsb' 0 3 := by decide
    rw [regByte, ← hz]
    exact split o
  next => cases h

end Sys2Proof
end

