-- ==== Sys2Proof/Laws/State.lean ====
section
/-! SUPPORT. What each named update of the state does to each field, true by rfl, and what it does to the two reads, of a register and of a
byte of memory. -/

namespace Sys2Proof.Machine

variable (s : State)

/-! ### setReg -/

@[simp] theorem State.setReg_regs (r : Reg) (v : Byte) : (s.setReg r v).regs = s.regs.set r.toNat v r.isLt := rfl
@[simp] theorem State.setReg_pc (r : Reg) (v : Byte) : (s.setReg r v).pc = s.pc := rfl
@[simp] theorem State.setReg_flE (r : Reg) (v : Byte) : (s.setReg r v).flE = s.flE := rfl
@[simp] theorem State.setReg_mem (r : Reg) (v : Byte) : (s.setReg r v).mem = s.mem := rfl
@[simp] theorem State.setReg_run (r : Reg) (v : Byte) : (s.setReg r v).run = s.run := rfl
@[simp] theorem State.setReg_fcause (r : Reg) (v : Byte) : (s.setReg r v).fcause = s.fcause := rfl
@[simp] theorem State.setReg_fpc (r : Reg) (v : Byte) : (s.setReg r v).fpc = s.fpc := rfl
@[simp] theorem State.setReg_fop (r : Reg) (v : Byte) : (s.setReg r v).fop = s.fop := rfl
@[simp] theorem State.setReg_ir (r : Reg) (v : Byte) : (s.setReg r v).ir = s.ir := rfl
@[simp] theorem State.setReg_out (r : Reg) (v : Byte) : (s.setReg r v).out = s.out := rfl
@[simp] theorem State.setReg_loadByte (r : Reg) (v : Byte) (c : Byte) : (s.setReg r v).loadByte c = s.loadByte c := rfl

/-! ### setPc -/

@[simp] theorem State.setPc_regs (t : Byte) : (s.setPc t).regs = s.regs := rfl
@[simp] theorem State.setPc_pc (t : Byte) : (s.setPc t).pc = t := rfl
@[simp] theorem State.setPc_flE (t : Byte) : (s.setPc t).flE = s.flE := rfl
@[simp] theorem State.setPc_mem (t : Byte) : (s.setPc t).mem = s.mem := rfl
@[simp] theorem State.setPc_run (t : Byte) : (s.setPc t).run = s.run := rfl
@[simp] theorem State.setPc_fcause (t : Byte) : (s.setPc t).fcause = s.fcause := rfl
@[simp] theorem State.setPc_fpc (t : Byte) : (s.setPc t).fpc = s.fpc := rfl
@[simp] theorem State.setPc_fop (t : Byte) : (s.setPc t).fop = s.fop := rfl
@[simp] theorem State.setPc_ir (t : Byte) : (s.setPc t).ir = s.ir := rfl
@[simp] theorem State.setPc_out (t : Byte) : (s.setPc t).out = s.out := rfl
@[simp] theorem State.setPc_reg (t : Byte) (q : Reg) : (s.setPc t).reg q = s.reg q := rfl
@[simp] theorem State.setPc_sp (t : Byte) : (s.setPc t).sp = s.sp := rfl
@[simp] theorem State.setPc_loadByte (t : Byte) (c : Byte) : (s.setPc t).loadByte c = s.loadByte c := rfl

/-! ### setE -/

@[simp] theorem State.setE_regs (b : Bool) : (s.setE b).regs = s.regs := rfl
@[simp] theorem State.setE_pc (b : Bool) : (s.setE b).pc = s.pc := rfl
@[simp] theorem State.setE_flE (b : Bool) : (s.setE b).flE = b := rfl
@[simp] theorem State.setE_mem (b : Bool) : (s.setE b).mem = s.mem := rfl
@[simp] theorem State.setE_run (b : Bool) : (s.setE b).run = s.run := rfl
@[simp] theorem State.setE_fcause (b : Bool) : (s.setE b).fcause = s.fcause := rfl
@[simp] theorem State.setE_fpc (b : Bool) : (s.setE b).fpc = s.fpc := rfl
@[simp] theorem State.setE_fop (b : Bool) : (s.setE b).fop = s.fop := rfl
@[simp] theorem State.setE_ir (b : Bool) : (s.setE b).ir = s.ir := rfl
@[simp] theorem State.setE_out (b : Bool) : (s.setE b).out = s.out := rfl
@[simp] theorem State.setE_reg (b : Bool) (q : Reg) : (s.setE b).reg q = s.reg q := rfl
@[simp] theorem State.setE_sp (b : Bool) : (s.setE b).sp = s.sp := rfl
@[simp] theorem State.setE_loadByte (b : Bool) (c : Byte) : (s.setE b).loadByte c = s.loadByte c := rfl

/-! ### storeByte -/

@[simp] theorem State.storeByte_regs (a v : Byte) : (s.storeByte a v).regs = s.regs := rfl
@[simp] theorem State.storeByte_pc (a v : Byte) : (s.storeByte a v).pc = s.pc := rfl
@[simp] theorem State.storeByte_flE (a v : Byte) : (s.storeByte a v).flE = s.flE := rfl
@[simp] theorem State.storeByte_mem (a v : Byte) : (s.storeByte a v).mem = s.mem.write a.toNat v := rfl
@[simp] theorem State.storeByte_run (a v : Byte) : (s.storeByte a v).run = s.run := rfl
@[simp] theorem State.storeByte_fcause (a v : Byte) : (s.storeByte a v).fcause = s.fcause := rfl
@[simp] theorem State.storeByte_fpc (a v : Byte) : (s.storeByte a v).fpc = s.fpc := rfl
@[simp] theorem State.storeByte_fop (a v : Byte) : (s.storeByte a v).fop = s.fop := rfl
@[simp] theorem State.storeByte_ir (a v : Byte) : (s.storeByte a v).ir = s.ir := rfl
@[simp] theorem State.storeByte_out (a v : Byte) : (s.storeByte a v).out = s.out := rfl
@[simp] theorem State.storeByte_reg (a v : Byte) (q : Reg) : (s.storeByte a v).reg q = s.reg q := rfl
@[simp] theorem State.storeByte_sp (a v : Byte) : (s.storeByte a v).sp = s.sp := rfl

/-! ### emit -/

@[simp] theorem State.emit_regs (v : Byte) : (s.emit v).regs = s.regs := rfl
@[simp] theorem State.emit_pc (v : Byte) : (s.emit v).pc = s.pc := rfl
@[simp] theorem State.emit_flE (v : Byte) : (s.emit v).flE = s.flE := rfl
@[simp] theorem State.emit_mem (v : Byte) : (s.emit v).mem = s.mem := rfl
@[simp] theorem State.emit_run (v : Byte) : (s.emit v).run = s.run := rfl
@[simp] theorem State.emit_fcause (v : Byte) : (s.emit v).fcause = s.fcause := rfl
@[simp] theorem State.emit_fpc (v : Byte) : (s.emit v).fpc = s.fpc := rfl
@[simp] theorem State.emit_fop (v : Byte) : (s.emit v).fop = s.fop := rfl
@[simp] theorem State.emit_ir (v : Byte) : (s.emit v).ir = s.ir := rfl
@[simp] theorem State.emit_out (v : Byte) : (s.emit v).out = s.out ++ [v] := rfl
@[simp] theorem State.emit_reg (v : Byte) (q : Reg) : (s.emit v).reg q = s.reg q := rfl
@[simp] theorem State.emit_sp (v : Byte) : (s.emit v).sp = s.sp := rfl
@[simp] theorem State.emit_loadByte (v : Byte) (c : Byte) : (s.emit v).loadByte c = s.loadByte c := rfl

/-! ### halt -/

@[simp] theorem State.halt_regs : (s.halt).regs = s.regs := rfl
@[simp] theorem State.halt_pc : (s.halt).pc = s.pc := rfl
@[simp] theorem State.halt_flE : (s.halt).flE = s.flE := rfl
@[simp] theorem State.halt_mem : (s.halt).mem = s.mem := rfl
@[simp] theorem State.halt_run : (s.halt).run = .halted := rfl
@[simp] theorem State.halt_fcause : (s.halt).fcause = s.fcause := rfl
@[simp] theorem State.halt_fpc : (s.halt).fpc = s.fpc := rfl
@[simp] theorem State.halt_fop : (s.halt).fop = s.fop := rfl
@[simp] theorem State.halt_ir : (s.halt).ir = s.ir := rfl
@[simp] theorem State.halt_out : (s.halt).out = s.out := rfl
@[simp] theorem State.halt_reg (q : Reg) : (s.halt).reg q = s.reg q := rfl
@[simp] theorem State.halt_sp : (s.halt).sp = s.sp := rfl
@[simp] theorem State.halt_loadByte (c : Byte) : (s.halt).loadByte c = s.loadByte c := rfl

/-! ### setIr -/

@[simp] theorem State.setIr_regs (op : Byte) : (s.setIr op).regs = s.regs := rfl
@[simp] theorem State.setIr_pc (op : Byte) : (s.setIr op).pc = s.pc := rfl
@[simp] theorem State.setIr_flE (op : Byte) : (s.setIr op).flE = s.flE := rfl
@[simp] theorem State.setIr_mem (op : Byte) : (s.setIr op).mem = s.mem := rfl
@[simp] theorem State.setIr_run (op : Byte) : (s.setIr op).run = s.run := rfl
@[simp] theorem State.setIr_fcause (op : Byte) : (s.setIr op).fcause = s.fcause := rfl
@[simp] theorem State.setIr_fpc (op : Byte) : (s.setIr op).fpc = s.fpc := rfl
@[simp] theorem State.setIr_fop (op : Byte) : (s.setIr op).fop = s.fop := rfl
@[simp] theorem State.setIr_ir (op : Byte) : (s.setIr op).ir = op := rfl
@[simp] theorem State.setIr_out (op : Byte) : (s.setIr op).out = s.out := rfl
@[simp] theorem State.setIr_reg (op : Byte) (q : Reg) : (s.setIr op).reg q = s.reg q := rfl
@[simp] theorem State.setIr_sp (op : Byte) : (s.setIr op).sp = s.sp := rfl
@[simp] theorem State.setIr_loadByte (op : Byte) (c : Byte) : (s.setIr op).loadByte c = s.loadByte c := rfl

/-! ### enterFault -/

@[simp] theorem State.enterFault_regs (f : Fault) : (s.enterFault f).regs = s.regs := rfl
@[simp] theorem State.enterFault_pc (f : Fault) : (s.enterFault f).pc = s.pc := rfl
@[simp] theorem State.enterFault_flE (f : Fault) : (s.enterFault f).flE = s.flE := rfl
@[simp] theorem State.enterFault_mem (f : Fault) : (s.enterFault f).mem = s.mem := rfl
@[simp] theorem State.enterFault_run (f : Fault) : (s.enterFault f).run = .faulted := rfl
@[simp] theorem State.enterFault_fcause (f : Fault) : (s.enterFault f).fcause = f.code := rfl
@[simp] theorem State.enterFault_fpc (f : Fault) : (s.enterFault f).fpc = s.pc := rfl
@[simp] theorem State.enterFault_fop (f : Fault) : (s.enterFault f).fop = s.ir := rfl
@[simp] theorem State.enterFault_ir (f : Fault) : (s.enterFault f).ir = s.ir := rfl
@[simp] theorem State.enterFault_out (f : Fault) : (s.enterFault f).out = s.out := rfl
@[simp] theorem State.enterFault_reg (f : Fault) (q : Reg) : (s.enterFault f).reg q = s.reg q := rfl
@[simp] theorem State.enterFault_sp (f : Fault) : (s.enterFault f).sp = s.sp := rfl
@[simp] theorem State.enterFault_loadByte (f : Fault) (c : Byte) : (s.enterFault f).loadByte c = s.loadByte c := rfl

/-! ### decSp -/

@[simp] theorem State.decSp_pc : (s.decSp).pc = s.pc := rfl
@[simp] theorem State.decSp_flE : (s.decSp).flE = s.flE := rfl
@[simp] theorem State.decSp_mem : (s.decSp).mem = s.mem := rfl
@[simp] theorem State.decSp_run : (s.decSp).run = s.run := rfl
@[simp] theorem State.decSp_fcause : (s.decSp).fcause = s.fcause := rfl
@[simp] theorem State.decSp_fpc : (s.decSp).fpc = s.fpc := rfl
@[simp] theorem State.decSp_fop : (s.decSp).fop = s.fop := rfl
@[simp] theorem State.decSp_ir : (s.decSp).ir = s.ir := rfl
@[simp] theorem State.decSp_out : (s.decSp).out = s.out := rfl
@[simp] theorem State.decSp_loadByte (c : Byte) : (s.decSp).loadByte c = s.loadByte c := rfl

/-! ### incSp -/

@[simp] theorem State.incSp_pc : (s.incSp).pc = s.pc := rfl
@[simp] theorem State.incSp_flE : (s.incSp).flE = s.flE := rfl
@[simp] theorem State.incSp_mem : (s.incSp).mem = s.mem := rfl
@[simp] theorem State.incSp_run : (s.incSp).run = s.run := rfl
@[simp] theorem State.incSp_fcause : (s.incSp).fcause = s.fcause := rfl
@[simp] theorem State.incSp_fpc : (s.incSp).fpc = s.fpc := rfl
@[simp] theorem State.incSp_fop : (s.incSp).fop = s.fop := rfl
@[simp] theorem State.incSp_ir : (s.incSp).ir = s.ir := rfl
@[simp] theorem State.incSp_out : (s.incSp).out = s.out := rfl
@[simp] theorem State.incSp_loadByte (c : Byte) : (s.incSp).loadByte c = s.loadByte c := rfl

/-! ### Reading a register after a write -/

/-- Read after write, for every pair of registers (rules R10, R11). -/
theorem State.reg_setReg (r q : Reg) (v : Byte) : (s.setReg r v).reg q = if q = r then v else s.reg q := by
  simp only [State.reg, State.setReg, Vector.getElem_set]
  by_cases h : q = r
  · simp [h]
  · have : r.toNat ≠ q.toNat := fun e => h (BitVec.eq_of_toNat_eq e.symm)
    simp [h, this]

@[simp] theorem State.reg_setReg_same (r : Reg) (v : Byte) : (s.setReg r v).reg r = v := by simp [State.reg_setReg]

@[simp] theorem State.reg_setReg_of_ne {r q : Reg} (h : q ≠ r) (v : Byte) : (s.setReg r v).reg q = s.reg q := by
  simp [State.reg_setReg, h]

theorem State.sp_setReg (r : Reg) (v : Byte) : (s.setReg r v).sp = if r = 7#3 then v else s.sp := by
  simp only [State.sp, State.reg_setReg, Config.spIndex, eq_comm]

theorem State.reg_decSp (q : Reg) : s.decSp.reg q = if q = 7#3 then s.sp - 1#8 else s.reg q := s.reg_setReg _ _ _

theorem State.reg_incSp (q : Reg) : s.incSp.reg q = if q = 7#3 then s.sp + 1#8 else s.reg q := s.reg_setReg _ _ _

@[simp] theorem State.sp_decSp : s.decSp.sp = s.sp - 1#8 := s.reg_setReg_same _ _

@[simp] theorem State.sp_incSp : s.incSp.sp = s.sp + 1#8 := s.reg_setReg_same _ _

end Sys2Proof.Machine
end

