-- ==== Sys2Proof/Laws/Memory.lean ====
section
/-! SUPPORT. The laws of memory: what a read gives after a write, on every list of cells, and that every memory operation keeps the canonical
form `Memory.wf`. -/

namespace Sys2Proof.Machine

/-! ### Read after write -/

theorem Memory.read_erase (m : Memory) (a b : Nat) : (m.erase a).read b = if b = a then Config.blank else m.read b := by
  induction m with
  | nil => simp [Memory.erase, Memory.read]
  | cons c m ih =>
    obtain ⟨k, w⟩ := c
    by_cases hk : k = a
    · have : Memory.erase ((k, w) :: m) a = Memory.erase m a := by simp [Memory.erase, hk]
      rw [this, ih]
      by_cases hb : b = a <;> simp [Memory.read, hk, hb, eq_comm]
      intro h; exact absurd h.symm (by simpa [eq_comm] using hb)
    · have : Memory.erase ((k, w) :: m) a = (k, w) :: Memory.erase m a := by simp [Memory.erase, hk]
      rw [this, Memory.read, Memory.read, ih]
      by_cases hkb : k = b
      · subst hkb; simp [hk]
      · simp [hkb]

theorem Memory.read_insert (m : Memory) (a b : Nat) (v : Byte) (h : m.read a = Config.blank)
    (hm : ∀ c ∈ m, c.1 ≠ a) : (m.insert a v).read b = if b = a then v else m.read b := by
  induction m with
  | nil => simp [Memory.insert, Memory.read, eq_comm]
  | cons c m ih =>
    obtain ⟨k, w⟩ := c
    have hk : k ≠ a := hm (k, w) (by simp)
    have hm' : ∀ c ∈ m, c.1 ≠ a := fun c hc => hm c (by simp [hc])
    have hr : Memory.read m a = Config.blank := by simpa [Memory.read, hk] using h
    by_cases hlt : a < k
    · by_cases hb : b = a
      · simp [Memory.insert, Memory.read, hlt, hb]
      · simp [Memory.insert, Memory.read, hlt, hb, Ne.symm hb]
    · simp only [Memory.insert, hlt, if_false, Memory.read, ih hr hm']
      by_cases hkb : k = b
      · subst hkb; simp [hk]
      · simp [hkb]

theorem Memory.mem_erase_ne (m : Memory) (a : Nat) : ∀ c ∈ m.erase a, c.1 ≠ a := by
  intro c hc; simpa [Memory.erase] using (List.mem_filter.mp hc).2

/-- The read after a write, at every address and on every list of cells, canonical or not (rule R29). -/
theorem Memory.read_write (m : Memory) (a b : Nat) (v : Byte) : (m.write a v).read b = if b = a then v else m.read b := by
  unfold Memory.write
  by_cases hv : v = Config.blank
  · simp [hv, Memory.read_erase]
  · simp only [hv, if_false]
    rw [Memory.read_insert _ _ _ _ (by simp [Memory.read_erase]) (m.mem_erase_ne a), Memory.read_erase]
    by_cases hb : b = a <;> simp [hb]

@[simp] theorem Memory.read_write_same (m : Memory) (a : Nat) (v : Byte) : (m.write a v).read a = v := by simp [Memory.read_write]

@[simp] theorem Memory.read_write_of_ne (m : Memory) {a b : Nat} (h : b ≠ a) (v : Byte) : (m.write a v).read b = m.read b := by
  simp [Memory.read_write, h]

theorem State.loadByte_storeByte (s : State) (a b v : Byte) : (s.storeByte a v).loadByte b = if b = a then v else s.loadByte b := by
  simp only [State.loadByte, State.storeByte, Memory.read_write]
  by_cases h : b = a
  · simp [h]
  · have : b.toNat ≠ a.toNat := fun e => h (BitVec.eq_of_toNat_eq e)
    simp [h, this]

/-! ### The canonical form -/

theorem Memory.wfAbove_cons (lo : Option Nat) (a : Nat) (v : Byte) (m : Memory) :
    Memory.wfAbove lo ((a, v) :: m) = true ↔
      Memory.below lo a = true ∧ a < 256 ∧ v ≠ Config.blank ∧ Memory.wfAbove (some a) m = true := by
  rw [Memory.wfAbove]
  simp only [Bool.and_eq_true, decide_eq_true_eq, bne_iff_ne, and_assoc]
  rfl

theorem Memory.wfAbove_weaken {lo : Option Nat} {a : Nat} {m : Memory} (h : Memory.wfAbove (some a) m = true)
    (hlo : Memory.below lo a = true) : Memory.wfAbove lo m = true := by
  cases m with
  | nil => rfl
  | cons c m =>
    obtain ⟨k, w⟩ := c
    rw [Memory.wfAbove_cons] at h ⊢
    refine ⟨?_, h.2⟩
    cases lo with
    | none => rfl
    | some l => have := h.1; simp [Memory.below] at hlo this ⊢; omega

theorem Memory.wfAbove_erase (m : Memory) (a : Nat) : ∀ lo, Memory.wfAbove lo m = true → Memory.wfAbove lo (m.erase a) = true := by
  induction m with
  | nil => intro lo _; rfl
  | cons c m ih =>
    obtain ⟨k, w⟩ := c
    intro lo h
    rw [Memory.wfAbove_cons] at h
    by_cases hk : k = a
    · have : Memory.erase ((k, w) :: m) a = Memory.erase m a := by simp [Memory.erase, hk]
      rw [this]
      exact ih lo (Memory.wfAbove_weaken h.2.2.2 h.1)
    · have : Memory.erase ((k, w) :: m) a = (k, w) :: Memory.erase m a := by simp [Memory.erase, hk]
      rw [this, Memory.wfAbove_cons]
      exact ⟨h.1, h.2.1, h.2.2.1, ih _ h.2.2.2⟩

theorem Memory.wfAbove_insert (m : Memory) (a : Nat) (v : Byte) (ha : a < 256) (hv : v ≠ Config.blank) (hm : ∀ c ∈ m, c.1 ≠ a) :
    ∀ lo, Memory.below lo a = true → Memory.wfAbove lo m = true → Memory.wfAbove lo (m.insert a v) = true := by
  induction m with
  | nil => intro lo hlo _; exact (Memory.wfAbove_cons _ _ _ _).mpr ⟨hlo, ha, hv, rfl⟩
  | cons c m ih =>
    obtain ⟨k, w⟩ := c
    intro lo hlo h
    have hk : k ≠ a := hm (k, w) (by simp)
    rw [Memory.wfAbove_cons] at h
    by_cases hlt : a < k
    · simp only [Memory.insert, hlt, if_true, Memory.wfAbove_cons]
      exact ⟨hlo, ha, hv, by simp [Memory.below, hlt], h.2.1, h.2.2.1, h.2.2.2⟩
    · simp only [Memory.insert, hlt, if_false, Memory.wfAbove_cons]
      exact ⟨h.1, h.2.1, h.2.2.1, ih (fun c hc => hm c (by simp [hc])) _ (by simp [Memory.below]; omega) h.2.2.2⟩

/-- Writing one of the 256 cells keeps the canonical form. -/
theorem Memory.wf_write (m : Memory) (a : Nat) (v : Byte) (ha : a < 256) (h : m.wf = true) : (m.write a v).wf = true := by
  unfold Memory.wf at *
  have he := m.wfAbove_erase a none h
  by_cases hv : v = Config.blank
  · simpa [Memory.write, hv] using he
  · simpa [Memory.write, hv] using Memory.wfAbove_insert _ a v ha hv (m.mem_erase_ne a) none rfl he

/-- A store at an address held in a byte keeps the canonical form. -/
theorem State.wf_storeByte (s : State) (a v : Byte) (h : s.mem.wf = true) : (s.storeByte a v).mem.wf = true :=
  Memory.wf_write _ _ _ a.isLt h

/-- `MemWrite` keeps the canonical form. -/
theorem memWrite_wf {s t : State} {a : Nat} {v : Byte} (h : s.mem.wf = true) (ht : memWrite s a v = .ok t) : t.mem.wf = true := by
  unfold memWrite at ht
  split at ht
  next ha => cases ht; exact Memory.wf_write _ _ _ ha h
  next => cases ht

/-- Placing bytes below the top of memory keeps the canonical form. -/
theorem placeBytes_wf (bs : List Byte) : ∀ (s : State) (a : Nat), a + bs.length ≤ 256 → s.mem.wf = true → (placeBytes s a bs).mem.wf = true := by
  induction bs with
  | nil => intro s a _ h; exact h
  | cons b bs ih =>
    intro s a ha h
    simp only [List.length_cons] at ha
    exact ih _ _ (by omega) (Memory.wf_write _ _ _ (by omega) h)

/-- The memory after reset is in canonical form. -/
theorem reset_mem_wf : State.reset.mem.wf = true := rfl

/-- What placing bytes changes: memory alone. -/
theorem placeBytes_frame (bs : List Byte) : ∀ (s : State) (a : Nat),
    placeBytes s a bs = { s with mem := (placeBytes s a bs).mem } := by
  induction bs with
  | nil => intro s a; rfl
  | cons b bs ih => intro s a; unfold placeBytes; rw [ih]

end Sys2Proof.Machine
end

