-- ==== Sys2Proof/Laws/Operands.lean ====
section
/-! SUPPORT. Once for each shared operation, everything it can answer: the checked successor and return address, the sequential shape, a
push, the ALU, and the byte window that fetch decodes. -/

namespace Sys2Proof.Machine

/-- `seqNext` gives the successor or the fault, and nothing else (rule R54). -/
theorem seqNext_cases (n : Nat) (s : State) :
    (s.pc.toNat + n + 1 < 256 ∧ seqNext n s = .ok (BitVec.ofNat 8 (s.pc.toNat + n + 1))) ∨
    (256 ≤ s.pc.toNat + n + 1 ∧ seqNext n s = .error .invalidAddress) := by
  unfold seqNext
  by_cases h : s.pc.toNat + n + 1 < 256
  · exact .inl ⟨h, by simp [Config.memSize, h]⟩
  · exact .inr ⟨by omega, by simp [Config.memSize, h]⟩

/-- `returnAddress` gives `pc + 2` or the fault, and nothing else (rule R86). -/
theorem returnAddress_cases (s : State) :
    (s.pc.toNat + 2 < 256 ∧ returnAddress s = .ok (BitVec.ofNat 8 (s.pc.toNat + 2))) ∨
    (256 ≤ s.pc.toNat + 2 ∧ returnAddress s = .error .invalidAddress) := by
  unfold returnAddress
  by_cases h : s.pc.toNat + 2 < 256
  · exact .inl ⟨h, by simp [Config.memSize, h]⟩
  · exact .inr ⟨by omega, by simp [Config.memSize, h]⟩

/-- The three ways a sequential instruction ends (rules R54, R55). -/
theorem sequential_cases (n : Nat) (body : State → Except Fault State) (s : State) :
    (256 ≤ s.pc.toNat + n + 1 ∧ sequential n body s = .next (s.enterFault .invalidAddress)) ∨
    (∃ f, s.pc.toNat + n + 1 < 256 ∧ body s = .error f ∧ sequential n body s = .next (s.enterFault f)) ∨
    (∃ s', s.pc.toNat + n + 1 < 256 ∧ body s = .ok s' ∧
      sequential n body s = .next (s'.setPc (BitVec.ofNat 8 (s.pc.toNat + n + 1)))) := by
  unfold sequential
  obtain ⟨h, e⟩ | ⟨h, e⟩ := seqNext_cases n s
  · cases hb : body s with
    | error f => exact .inr (.inl ⟨f, h, rfl, by simp only [e, raise]⟩)
    | ok s' => exact .inr (.inr ⟨s', h, rfl, by simp only [e]⟩)
  · exact .inl ⟨h, by simp only [e, raise]⟩

/-- A sequential instruction that completes. -/
theorem sequential_ok {n : Nat} {body : State → Except Fault State} {s s' : State} (h : s.pc.toNat + n + 1 < 256) (hb : body s = .ok s') :
    sequential n body s = .next (s'.setPc (BitVec.ofNat 8 (s.pc.toNat + n + 1))) := by
  unfold sequential seqNext
  simp [Config.memSize, h, hb]

/-- A sequential instruction whose successor would be above 255 (rule R96). -/
theorem sequential_top {n : Nat} {body : State → Except Fault State} {s : State} (h : 256 ≤ s.pc.toNat + n + 1) :
    sequential n body s = .next (s.enterFault .invalidAddress) := by
  unfold sequential seqNext
  simp [Config.memSize, Nat.not_lt.mpr h, raise]

/-- What a push leaves: R7 and the cell below the old top, and nothing else (rule R80). -/
theorem pushWith_eq (value : State → Byte) (s : State) : pushWith value s = s.decSp.storeByte (s.sp - 1#8) (value s.decSp) := by
  simp [pushWith]

/-- The ALU writes one register, or the flag, or raises a fault (rule R59). -/
theorem alu_cases (op : AluOp) (a b : Reg) (s : State) :
    (∃ v, alu op a b s = .ok (s.setReg a v)) ∨ (∃ e, alu op a b s = .ok (s.setE e)) ∨ (∃ f, alu op a b s = .error f) := by
  cases op with
  | cmp => exact .inr (.inl ⟨_, rfl⟩)
  | other => exact .inr (.inr ⟨_, rfl⟩)
  | mod =>
    by_cases h : s.reg b = 0x00#8
    · exact .inr (.inr ⟨.divisionByZero, by simp [alu, h]⟩)
    · exact .inl ⟨narrow ((s.reg a).toNat % (s.reg b).toNat), by simp [alu, h]⟩
  | _ => exact .inl ⟨_, rfl⟩

/-- `MemRead` at an address held in a byte never faults (rule R26). -/
theorem memRead_byte (s : State) (a : Byte) : memRead s a.toNat = .ok (s.loadByte a) := by
  have := a.isLt
  simp [memRead, Config.memSize, State.loadByte, this]

theorem memRead_lt {s : State} {a : Nat} (h : a < 256) : memRead s a = .ok (s.mem.read a) := by simp [memRead, Config.memSize, h]

theorem memRead_ge {s : State} {a : Nat} (h : 256 ≤ a) : memRead s a = .error .invalidAddress := by
  simp [memRead, Config.memSize, Nat.not_lt.mpr h]

/-- The bytes fetch decodes: as many of the three as lie below 256 (rule R53). -/
theorem bytesFrom_eq (s : State) (k : Nat) : ∀ a, bytesFrom s a k = (List.range' a (min k (256 - a))).map s.mem.read := by
  induction k with
  | zero => intro a; simp [bytesFrom]
  | succ k ih =>
    intro a
    by_cases h : a < 256
    · rw [bytesFrom, memRead_lt h]
      obtain ⟨j, hj⟩ : ∃ j, min (k + 1) (256 - a) = j + 1 := ⟨min k (256 - (a + 1)), by omega⟩
      have hj' : min k (256 - (a + 1)) = j := by omega
      simp only [ih, hj, hj', List.range'_succ, List.map_cons]
    · rw [bytesFrom, memRead_ge (by omega)]
      simp [show 256 - a = 0 by omega]

end Sys2Proof.Machine
end

