-- ==== Sys2Proof/Laws/PerInstr.lean ====
section
/-! SUPPORT. One fact for every instruction as syntax, one lemma per constructor: its bytes begin with a well-formed instruction as
`WellFormed` judges raw bytes, and there are as many of them as the opcode table says (rules R37, R39, R42). -/

namespace Sys2Proof.Laws.EncodedWell

/-- The encoded bytes are well formed and have the instruction's length, which the opcode byte alone tells. -/
def Statement (i : Instr) : Prop :=
  WellFormed.bytesOk (encode i) = true ∧ (encode i).length = i.length ∧
    WellFormed.operandCount i.opcode.byte = some (i.length - 1)

/-- A register's operand byte has bits 7:3 zero (rule R39). -/
theorem regByteOk_regByte (r : Reg) : WellFormed.regByteOk (regByte r) = true := by
  have : ∀ r : BitVec 3, WellFormed.regByteOk (regByte r) = true := by decide
  exact this r

/-- Format R: one legal register byte. -/
theorem bytesOk_r {op : Byte} (r : Reg) (h : WellFormed.operandCount op = some 1) (hr : WellFormed.regOperandCount op = 1) :
    WellFormed.bytesOk [op, regByte r] = true := by simp [WellFormed.bytesOk, h, hr, regByteOk_regByte]

/-- Format RI: one legal register byte, then any byte. -/
theorem bytesOk_ri {op : Byte} (r : Reg) (v : Byte) (h : WellFormed.operandCount op = some 2) (hr : WellFormed.regOperandCount op = 1) :
    WellFormed.bytesOk [op, regByte r, v] = true := by simp [WellFormed.bytesOk, h, hr, regByteOk_regByte]

/-- Format RR: two legal register bytes. -/
theorem bytesOk_rr {op : Byte} (a b : Reg) (h : WellFormed.operandCount op = some 2) (hr : WellFormed.regOperandCount op = 2) :
    WellFormed.bytesOk [op, regByte a, regByte b] = true := by simp [WellFormed.bytesOk, h, hr, regByteOk_regByte]

theorem hlt : Statement .hlt := ⟨rfl, rfl, rfl⟩

theorem ret : Statement .ret := ⟨rfl, rfl, rfl⟩

theorem push (r : Reg) : Statement (.push r) := ⟨bytesOk_r r rfl rfl, rfl, rfl⟩

theorem pop (r : Reg) : Statement (.pop r) := ⟨bytesOk_r r rfl rfl, rfl, rfl⟩

theorem prn (r : Reg) : Statement (.prn r) := ⟨bytesOk_r r rfl rfl, rfl, rfl⟩

theorem call (r : Reg) : Statement (.call r) := ⟨bytesOk_r r rfl rfl, rfl, rfl⟩

theorem jmp (r : Reg) : Statement (.jmp r) := ⟨bytesOk_r r rfl rfl, rfl, rfl⟩

theorem jeq (r : Reg) : Statement (.jeq r) := ⟨bytesOk_r r rfl rfl, rfl, rfl⟩

theorem jne (r : Reg) : Statement (.jne r) := ⟨bytesOk_r r rfl rfl, rfl, rfl⟩

theorem ldi (r : Reg) (v : Byte) : Statement (.ldi r v) := ⟨bytesOk_ri r v rfl rfl, rfl, rfl⟩

theorem st (a b : Reg) : Statement (.st a b) := ⟨bytesOk_rr a b rfl rfl, rfl, rfl⟩

theorem add (a b : Reg) : Statement (.add a b) := ⟨bytesOk_rr a b rfl rfl, rfl, rfl⟩

theorem mul (a b : Reg) : Statement (.mul a b) := ⟨bytesOk_rr a b rfl rfl, rfl, rfl⟩

theorem cmp (a b : Reg) : Statement (.cmp a b) := ⟨bytesOk_rr a b rfl rfl, rfl, rfl⟩

end Sys2Proof.Laws.EncodedWell
end

