-- ==== Sys2Proof/Laws/Step.lean ====
section
/-! SUPPORT. What exec, fetch and step can answer, said once. -/

namespace Sys2Proof.Machine

/-- What an instruction that completes other than by HLT leaves alone: the run state, the fault record and IR. Memory stays canonical. -/
structure KeepsControl (s t : State) : Prop where
  run : t.run = s.run
  fcause : t.fcause = s.fcause
  fpc : t.fpc = s.fpc
  fop : t.fop = s.fop
  ir : t.ir = s.ir
  wf : s.mem.wf = true → t.mem.wf = true

theorem KeepsControl.refl (s : State) : KeepsControl s s := ⟨rfl, rfl, rfl, rfl, rfl, id⟩

theorem KeepsControl.setPc {s t : State} (h : KeepsControl s t) (a : Byte) : KeepsControl s (t.setPc a) :=
  ⟨h.run, h.fcause, h.fpc, h.fop, h.ir, h.wf⟩

theorem KeepsControl.alu {op : AluOp} {a b : Reg} {s t : State} (h : alu op a b s = .ok t) : KeepsControl s t := by
  obtain ⟨v, e⟩ | ⟨v, e⟩ | ⟨f, e⟩ := alu_cases op a b s <;> rw [e] at h <;> cases h <;> exact ⟨rfl, rfl, rfl, rfl, rfl, id⟩

theorem KeepsControl.pushWith (value : State → Byte) (s : State) : KeepsControl s (pushWith value s) :=
  ⟨rfl, rfl, rfl, rfl, rfl, fun h => State.wf_storeByte _ _ _ h⟩

/-- A sequential instruction whose body raises no fault. -/
theorem sequential_total {n : Nat} {body : State → Except Fault State} {s : State} (hk : ∀ u, body s = .ok u → KeepsControl s u)
    (he : ∀ f, body s ≠ .error f) :
    sequential n body s = .next (s.enterFault .invalidAddress) ∨ ∃ t, sequential n body s = .next t ∧ KeepsControl s t := by
  obtain ⟨-, e⟩ | ⟨f, -, e, -⟩ | ⟨u, -, e, e'⟩ := sequential_cases n body s
  · exact .inl e
  · exact absurd e (he f)
  · exact .inr ⟨_, e', (hk u e).setPc _⟩

/-- Everything exec can answer: HLT's halt, the fault of an address above 255, or a next state that keeps the control state. -/
theorem exec_cases (i : Instr) (s : State) :
    (i = .hlt ∧ exec i s = .next s.halt) ∨ exec i s = .next (s.enterFault .invalidAddress) ∨
      ∃ t, exec i s = .next t ∧ KeepsControl s t := by
  have simple : ∀ u : State, u.run = s.run → u.fcause = s.fcause → u.fpc = s.fpc → u.fop = s.fop → u.ir = s.ir → u.mem = s.mem →
      KeepsControl s u := fun u h1 h2 h3 h4 h5 h6 => ⟨h1, h2, h3, h4, h5, fun h => h6 ▸ h⟩
  cases i with
  | hlt => exact .inl ⟨rfl, rfl⟩
  | ret => exact .inr (.inr ⟨_, rfl, simple _ rfl rfl rfl rfl rfl rfl⟩)
  | push r =>
    simp only [exec, execPush]
    exact .inr (sequential_total (fun u h => by cases h; exact .pushWith _ s) (by intro f h; cases h))
  | pop r =>
    simp only [exec, execPop]
    exact .inr (sequential_total (fun u h => by cases h; exact simple _ rfl rfl rfl rfl rfl rfl) (by intro f h; cases h))
  | prn r =>
    simp only [exec, execPrn]
    exact .inr (sequential_total (fun u h => by cases h; exact simple _ rfl rfl rfl rfl rfl rfl) (by intro f h; cases h))
  | call r =>
    obtain ⟨-, e⟩ | ⟨-, e⟩ := returnAddress_cases s
    · simp only [exec, execCall, e, jumpTo]
      exact .inr (.inr ⟨_, rfl, (KeepsControl.pushWith _ s).setPc _⟩)
    · exact .inr (.inl (by simp only [exec, execCall, e, raise]))
  | jmp r => exact .inr (.inr ⟨_, rfl, (KeepsControl.refl s).setPc _⟩)
  | jeq r =>
    simp only [exec, execJeq]
    split
    · exact .inr (.inr ⟨_, rfl, (KeepsControl.refl s).setPc _⟩)
    · exact .inr (sequential_total (fun u h => by cases h; exact .refl s) (by intro f h; cases h))
  | jne r =>
    simp only [exec, execJne]
    split
    · exact .inr (.inr ⟨_, rfl, (KeepsControl.refl s).setPc _⟩)
    · exact .inr (sequential_total (fun u h => by cases h; exact .refl s) (by intro f h; cases h))
  | ldi r v =>
    simp only [exec, execLdi]
    exact .inr (sequential_total (fun u h => by cases h; exact simple _ rfl rfl rfl rfl rfl rfl) (by intro f h; cases h))
  | st d src =>
    simp only [exec, execSt]
    exact .inr (sequential_total (fun u h => by cases h; exact ⟨rfl, rfl, rfl, rfl, rfl, fun h => State.wf_storeByte _ _ _ h⟩) (by intro f h; cases h))
  | add a b =>
    simp only [exec, execAdd]
    exact .inr (sequential_total (fun u h => .alu h) (by intro f h; cases h))
  | mul a b =>
    simp only [exec, execMul]
    exact .inr (sequential_total (fun u h => .alu h) (by intro f h; cases h))
  | cmp a b =>
    simp only [exec, execCmp]
    exact .inr (sequential_total (fun u h => .alu h) (by intro f h; cases h))

/-- Fetching raises only the two faults a program can reach (rules R61, R96, R97). -/
theorem fetch_error {s : State} {f : Fault} (h : fetch s = .error f) : f = .invalidAddress ∨ f = .illegalInstruction := by
  unfold fetch at h
  split at h
  next => cases h
  next e _ => cases h; cases e <;> simp [faultOf]

/-- A running machine runs the fetched instruction (rule R50). -/
theorem step_of_fetch {s : State} {i : Instr} (hr : s.run = .running) (h : fetch s = .ok i) :
    step s = exec i (s.setIr (fetchOpcode s)) := by simp only [step, hr, h]

/-- A running machine whose fetch faults enters that fault (rules R50, R101). -/
theorem step_of_fetch_error {s : State} {f : Fault} (hr : s.run = .running) (h : fetch s = .error f) :
    step s = .next ((s.setIr (fetchOpcode s)).enterFault f) := by simp only [step, hr, h, raise]

/-- A stopped machine stays as it is (rules R18, R56). -/
theorem step_of_stopped {s : State} (hr : s.run ≠ .running) : step s = .next s := by
  unfold step
  cases h : s.run <;> first | exact absurd h hr | rfl

end Sys2Proof.Machine
end

