-- ==== Sys2Proof/Laws/Run.lean ====
section
/-! SUPPORT. Runs of a machine, one step at a time. -/

namespace Sys2Proof.Machine

/-- One step of any machine that answers a next state, then the rest of the run. -/
theorem run_succ_of_step (M : Host.Core) (n : Nat) (s t : M.State) (h : M.step s = .next t) : M.run (n + 1) s = M.run n t := by
  rw [Host.Core.run.eq_2, h]

/-- No step. -/
theorem run_zero (s : State) : core.run 0 s = .next s := rfl

/-- One step of this machine, then the rest of the run. -/
theorem run_succ {s t : State} (h : step s = .next t) (n : Nat) : core.run (n + 1) s = core.run n t := run_succ_of_step core n s t h

end Sys2Proof.Machine
end

