-- ==== Sys2Proof/Tests/Slice0.lean ====
section
/-! SUPPORT. The model's own tests. Expected results come from the spec's opcode table (30_encoding.md) and its test vectors
(95_test_vectors.md, the V- names); the witnesses show that the hypotheses of each statement can be met together. -/

namespace Sys2Proof.Tests

open Sys2Proof Sys2Proof.Machine Sys2Proof.Claims

/-! ### Helpers -/

/-- The reset state with bytes placed at `pc`. -/
def withCode (pc : Byte) (code : List Byte) : State := placeBytes { State.reset with pc := pc } pc.toNat code

/-- The state a result answers, if it answers one. -/
def nextOf : Result → Option State
  | .next t => some t
  | .fault _ => none
  | .refused _ => none

/-- What holds after one step. -/
def after (s : State) (p : State → Bool) : Bool := (nextOf (step s)).any p

/-- The state is Faulted with this record. -/
def faultIs (cause : BitVec 3) (pc op : Byte) (t : State) : Bool :=
  t.status = { run := .faulted, fcause := cause, fpc := pc, fop := op } && t.pc = pc

/-! ### Well-formedness: one ill-formed term for each check -/

theorem test_wellFormed_accepts_ldi : WellFormed.bytesOk [0x82#8, 0x07#8, 0xFF#8] = true := by decide

theorem test_wellFormed_refuses_unknown_opcode : WellFormed.bytesOk [0x83#8, 0x00#8, 0x01#8] = false := by decide

theorem test_wellFormed_refuses_missing_operand : WellFormed.bytesOk [0x82#8, 0x00#8] = false := by decide

theorem test_wellFormed_refuses_first_register_above_7 : WellFormed.bytesOk [0x45#8, 0x08#8] = false := by decide

theorem test_wellFormed_refuses_second_register_above_7 : WellFormed.bytesOk [0x84#8, 0x00#8, 0x09#8] = false := by decide

/-! ### Decoding: every constructor, from its bit pattern in the opcode table -/

theorem test_decode_hlt : decode [0b00000001#8] = .ok (.hlt, []) := by decide

theorem test_decode_ret : decode [0b00010001#8] = .ok (.ret, []) := by decide

theorem test_decode_push : decode [0b01000101#8, 0b00000011#8] = .ok (.push 3#3, []) := by decide

theorem test_decode_pop : decode [0b01000110#8, 0b00000100#8] = .ok (.pop 4#3, []) := by decide

theorem test_decode_prn : decode [0b01000111#8, 0b00000001#8] = .ok (.prn 1#3, []) := by decide

theorem test_decode_call : decode [0b01010000#8, 0b00000110#8] = .ok (.call 6#3, []) := by decide

theorem test_decode_jmp : decode [0b01010100#8, 0b00000101#8] = .ok (.jmp 5#3, []) := by decide

theorem test_decode_jeq : decode [0b01010101#8, 0b00000010#8] = .ok (.jeq 2#3, []) := by decide

theorem test_decode_jne : decode [0b01010110#8, 0b00000111#8] = .ok (.jne 7#3, []) := by decide

theorem test_decode_ldi : decode [0b10000010#8, 0b00000101#8, 0b11111110#8] = .ok (.ldi 5#3 254#8, []) := by decide

theorem test_decode_st : decode [0b10000100#8, 0b00000001#8, 0b00000110#8] = .ok (.st 1#3 6#3, []) := by decide

theorem test_decode_add : decode [0b10100000#8, 0b00000010#8, 0b00000101#8] = .ok (.add 2#3 5#3, []) := by decide

theorem test_decode_mul : decode [0b10100010#8, 0b00000011#8, 0b00000100#8] = .ok (.mul 3#3 4#3, []) := by decide

theorem test_decode_cmp : decode [0b10100111#8, 0b00000111#8, 0b00000000#8] = .ok (.cmp 7#3 0#3, []) := by decide

/-- The source's first example program leaves its other two instructions to decode (S1). -/
theorem test_decode_leaves_the_rest :
    decode [0x82#8, 0x00#8, 0x08#8, 0x47#8, 0x00#8, 0x01#8] = .ok (.ldi 0#3 8#8, [0x47#8, 0x00#8, 0x01#8]) := by decide

theorem test_decode_refuses_zero : decode [0x00#8] = .error (.unknownOpcode 0x00#8) := by decide

/-- V-DEC-7: the missing operand is reported before the bad register byte. -/
theorem test_decode_missing_before_bad_register : decode [0x82#8, 0x09#8] = .error .missingOperand := by decide

theorem test_decode_refuses_register_8 : decode [0xA0#8, 0x00#8, 0x10#8] = .error (.badRegister 0x10#8) := by decide

/-- 30_encoding.md R44: exactly 242 byte values are no opcode. -/
theorem test_242_illegal_opcode_bytes :
    ((List.range 256).filter fun n => (Opcode.ofByte (BitVec.ofNat 8 n)).isNone).length = 242 := by decide +kernel

/-- The word of `ADD R1, R2` as the opcode table numbers its bits. -/
theorem test_decodeTableWord_add : decodeTableWord 24 0x0201A0 = some (.add 1#3 2#3) := by decide

theorem test_decodeTableWord_short : decodeTableWord 8 0x82 = some (.ldi 0#3 0#8) := by decide

/-- The placed word is what the first step after reset runs. -/
theorem test_withFetchWord_runs : after (State.reset.withFetchWord 24 0x080082) (fun t => t.reg 0#3 = 0x08#8 && t.pc = 0x03#8) = true := by
  decide

/-! ### Single steps, from the spec's vectors -/

/-- V-LDI-3: the stack pointer is an ordinary destination. -/
theorem test_ldi_r7 : after (withCode 0x00#8 [0x82#8, 0x07#8, 0x80#8]) (fun t => t.reg 7#3 = 0x80#8 && t.pc = 0x03#8) = true := by decide

/-- V-LDI-7: no effect where the successor would be 0x100. -/
theorem test_ldi_at_fd_faults :
    after (withCode 0xFD#8 [0x82#8, 0x01#8, 0x07#8]) (fun t => faultIs 1#3 0xFD#8 0x82#8 t && t.reg 1#3 = 0x00#8) = true := by decide

/-- V-ST-4: the highest address is writable. -/
theorem test_st_top :
    after (((withCode 0x00#8 [0x84#8, 0x00#8, 0x01#8]).setReg 0#3 0xFF#8).setReg 1#3 0x5A#8) (fun t => t.loadByte 0xFF#8 = 0x5A#8) = true := by
  decide

/-- V-ST-5: the second register byte is checked. -/
theorem test_st_bad_register : after (withCode 0x00#8 [0x84#8, 0x00#8, 0x09#8]) (faultIs 2#3 0x00#8 0x84#8) = true := by decide

/-- V-IADD-1: 200 + 100 wraps to 44. -/
theorem test_add_wraps :
    after (((withCode 0x06#8 [0xA0#8, 0x00#8, 0x01#8]).setReg 0#3 0xC8#8).setReg 1#3 0x64#8)
      (fun t => t.reg 0#3 = 0x2C#8 && t.reg 1#3 = 0x64#8 && t.pc = 0x09#8) = true := by decide

/-- V-IMUL-2: 255 * 255 keeps its low byte. -/
theorem test_mul_low_byte :
    after (((withCode 0x00#8 [0xA2#8, 0x02#8, 0x03#8]).setReg 2#3 0xFF#8).setReg 3#3 0xFF#8) (fun t => t.reg 2#3 = 0x01#8) = true := by decide

/-- V-ICMP-2: unequal registers clear a flag that was set. -/
theorem test_cmp_clears :
    after ((((withCode 0x0F#8 [0xA7#8, 0x00#8, 0x02#8]).setReg 0#3 4#8).setReg 2#3 5#8).setE true) (fun t => !t.flE && t.pc = 0x12#8) = true := by
  decide

/-- V-ICMP-3: a register equals itself. -/
theorem test_cmp_same : after (withCode 0x00#8 [0xA7#8, 0x04#8, 0x04#8]) (fun t => t.fl = 0x01#8) = true := by decide

/-- V-STK-3: the stack pointer wraps from 0x00 to 0xFF. -/
theorem test_push_wraps :
    after (((withCode 0x06#8 [0x45#8, 0x00#8]).setReg 0#3 0xAB#8).setReg 7#3 0x00#8)
      (fun t => t.reg 7#3 = 0xFF#8 && t.loadByte 0xFF#8 = 0xAB#8 && t.pc = 0x08#8) = true := by decide

/-- V-STK-5: PUSH R7 pushes the decremented value. -/
theorem test_push_r7 : after (withCode 0x00#8 [0x45#8, 0x07#8]) (fun t => t.reg 7#3 = 0xF3#8 && t.loadByte 0xF3#8 = 0xF3#8) = true := by decide

/-- V-STK-2: POP keeps the cell. -/
theorem test_pop_keeps_cell :
    after (((withCode 0x02#8 [0x46#8, 0x01#8]).setReg 7#3 0xF3#8).storeByte 0xF3#8 0x2A#8)
      (fun t => t.reg 1#3 = 0x2A#8 && t.reg 7#3 = 0xF4#8 && t.loadByte 0xF3#8 = 0x2A#8) = true := by decide

/-- V-STK-6: POP R7 loads, then increments. -/
theorem test_pop_r7 :
    after (((withCode 0x05#8 [0x46#8, 0x07#8]).setReg 7#3 0xF3#8).storeByte 0xF3#8 0x20#8) (fun t => t.reg 7#3 = 0x21#8) = true := by decide

/-- V-CT-1: the return address is the one after CALL's operand. -/
theorem test_call :
    after ((withCode 0x06#8 [0x50#8, 0x01#8]).setReg 1#3 0x10#8)
      (fun t => t.reg 7#3 = 0xF3#8 && t.loadByte 0xF3#8 = 0x08#8 && t.pc = 0x10#8) = true := by decide

/-- V-CT-5: a return address of 0x100 faults and pushes nothing. -/
theorem test_call_at_fe_faults :
    after (withCode 0xFE#8 [0x50#8, 0x00#8]) (fun t => faultIs 1#3 0xFE#8 0x50#8 t && t.reg 7#3 = 0xF4#8) = true := by decide

/-- V-CT-2: RET goes to the popped byte as it stands. -/
theorem test_ret :
    after (((withCode 0x17#8 [0x11#8]).setReg 7#3 0xF3#8).storeByte 0xF3#8 0x08#8) (fun t => t.pc = 0x08#8 && t.reg 7#3 = 0xF4#8) = true := by
  decide

/-- V-CT-9: a jump in the last two bytes is legal. -/
theorem test_jmp_at_fe : after ((withCode 0xFE#8 [0x54#8, 0x01#8]).setReg 1#3 0x08#8) (fun t => t.pc = 0x08#8 && t.run = .running) = true := by
  decide

/-- V-CT-10: a jump whose operand would be at 0x100 faults. -/
theorem test_jmp_at_ff_faults : after (withCode 0xFF#8 [0x54#8]) (faultIs 1#3 0xFF#8 0x54#8) = true := by decide

/-- V-CT-11: JNE is taken when the flag is clear. -/
theorem test_jne_taken : after ((withCode 0x12#8 [0x56#8, 0x03#8]).setReg 3#3 0x0C#8) (fun t => t.pc = 0x0C#8) = true := by decide

/-- V-CT-17: JNE not taken has a successor to check. -/
theorem test_jne_untaken_at_fe_faults : after ((withCode 0xFE#8 [0x56#8, 0x01#8]).setE true) (faultIs 1#3 0xFE#8 0x56#8) = true := by decide

/-- V-CT-14: JEQ falls through when the flag is clear. -/
theorem test_jeq_untaken : after ((withCode 0x0E#8 [0x55#8, 0x02#8]).setReg 2#3 0x13#8) (fun t => t.pc = 0x10#8) = true := by decide

/-- V-CT-19: the register byte is checked even when the jump is not taken. -/
theorem test_jeq_bad_register : after (withCode 0x00#8 [0x55#8, 0x09#8]) (faultIs 2#3 0x00#8 0x55#8) = true := by decide

/-- V-SYS-3: PRN R7 prints 244. -/
theorem test_prn_r7 : after (withCode 0x00#8 [0x47#8, 0x07#8]) (fun t => t.out = [244#8] && t.pc = 0x02#8) = true := by decide

/-- V-SYS-4: a PRN whose successor would be 0x100 prints nothing. -/
theorem test_prn_at_fe_faults : after (withCode 0xFE#8 [0x47#8, 0x00#8]) (fun t => faultIs 1#3 0xFE#8 0x47#8 t && t.out = []) = true := by decide

/-- V-SYS-7: HLT in the last byte is legal. -/
theorem test_hlt_at_ff : after (withCode 0xFF#8 [0x01#8]) (fun t => t.run = .halted && t.pc = 0xFF#8) = true := by decide

/-- V-DEC-1: zero is no no-operation; it is what the first step after reset meets where no image is placed. -/
theorem test_reset_without_image_faults : after State.reset (faultIs 2#3 0x00#8 0x00#8) = true := by decide

/-- V-DEC-6: the register check comes before the successor check. -/
theorem test_register_check_before_successor : after (withCode 0xFD#8 [0x82#8, 0x09#8, 0x00#8]) (faultIs 2#3 0xFD#8 0x82#8) = true := by decide

/-! ### The ALU operations that no opcode reaches, from the spec's vectors -/

/-- One ALU call with A in R1 and B in R2. -/
def aluOf (op : AluOp) (a b : Byte) : Except Fault Byte :=
  match alu op 1#3 2#3 ((State.reset.setReg 1#3 a).setReg 2#3 b) with
  | .ok t => .ok (t.reg 1#3)
  | .error f => .error f

/-- V-MOD-4 and V-MOD-6. -/
theorem test_alu_mod : aluOf .mod 0xFF#8 0x10#8 = .ok 0x0F#8 ∧ aluOf .mod 0x05#8 0x00#8 = .error .divisionByZero := by decide

/-- V-AND-1, V-OR-1, V-XOR-1, V-NOT-3. -/
theorem test_alu_logic : aluOf .and 0xCC#8 0xAA#8 = .ok 0x88#8 ∧ aluOf .or 0xCC#8 0xAA#8 = .ok 0xEE#8 ∧ aluOf .xor 0xCC#8 0xAA#8 = .ok 0x66#8 ∧
    aluOf .not 0xA5#8 0x33#8 = .ok 0x5A#8 := by decide

/-- V-SHL-2 and V-SHR-2: the distance is 1 whatever B is, and SHR is logical. -/
theorem test_alu_shifts : aluOf .shl 0x81#8 0x05#8 = .ok 0x02#8 ∧ aluOf .shr 0x81#8 0x05#8 = .ok 0x40#8 := by decide

/-- V-UNS-1. -/
theorem test_alu_other : aluOf .other 0x81#8 0x05#8 = .error .unsupportedOperation := by decide

/-! ### Memory -/

/-- Writing zero removes a cell's entry, and entries stay in order. -/
theorem test_memory_canonical :
    (((State.reset.storeByte 9#8 1#8).storeByte 3#8 2#8).storeByte 9#8 0#8).mem = [(3, 2#8)] := by decide

/-- An image longer than 256 bytes is not placed (log entry 14). -/
theorem test_boot_refuses_257 : State.boot (List.replicate 257 0x01#8) = none :=
  if_neg (by rw [List.length_replicate]; decide)

/-! ### Witnesses: for each statement with hypotheses, a concrete state and operands that meet them -/

/-- A state at the last address where a three-byte instruction still has a successor. -/
def atFC : State := { State.reset with pc := 0xFC#8 }

/-- A state at the last address where a two-byte instruction still has a successor. -/
def atFD : State := { State.reset with pc := 0xFD#8 }

/-- A state whose next instruction is `ST R0, R1` storing HLT's byte at 3, the address of the instruction after it. -/
def storesAhead : State := ((withCode 0x00#8 [0x84#8, 0x00#8, 0x01#8]).setReg 0#3 0x03#8).setReg 1#3 0x01#8

theorem test_witness_EntryPointIsAddressZero : ∃ s t, State.boot [0x01#8] = some s ∧ step s = .next t := ⟨_, _, rfl, rfl⟩

theorem test_witness_BootPlacesTheImageFromAddressZero :
    [0x82#8, 0x00#8, 0x08#8].length ≤ 256 ∧ 2 < [0x82#8, 0x00#8, 0x08#8].length ∧
      [0x82#8, 0x00#8, 0x08#8].length ≤ 3 ∧ [0x82#8, 0x00#8, 0x08#8].length ≤ 255 ∧ (255 : Nat) ≤ 255 := by decide

theorem test_witness_BootPlacesTheImageFromAddressZero_full : (List.replicate 256 0x01#8).length ≤ 256 := by
  rw [List.length_replicate]

theorem test_witness_BootChangesMemoryAlone :
    (∃ s, State.boot [0x01#8] = some s) ∧ 256 < (List.replicate 257 0x01#8).length :=
  ⟨⟨_, rfl⟩, by rw [List.length_replicate]; decide⟩

theorem test_witness_DecodedBytesAreTheEncoding : decode [0x84#8, 0x07#8, 0x00#8, 0xFF#8] = .ok (.st 7#3 0#3, [0xFF#8]) := by decide

theorem test_witness_StepRunsTheDecodedInstruction :
    storesAhead.run = .running ∧ decode (bytesFrom storesAhead storesAhead.pc.toNat 3) = .ok (.st 0#3 1#3, []) := by decide

/-- The last byte of the instruction is at address 255. -/
theorem test_witness_StepRunsTheEncodedInstruction :
    (withCode 0xFE#8 [0x54#8, 0x01#8]).run = .running ∧
    (withCode 0xFE#8 [0x54#8, 0x01#8]).pc.toNat + (encode (.jmp 1#3)).length ≤ 256 ∧
    ∀ (k : Fin 2), byteAt (withCode 0xFE#8 [0x54#8, 0x01#8]) ((withCode 0xFE#8 [0x54#8, 0x01#8]).pc.toNat + k) = (encode (.jmp 1#3))[k] := by
  decide

/-- Unknown opcode; operand past the top; bad register byte; a fetch that succeeds, at the last address where its operands exist. -/
theorem test_witness_FetchChecksRaiseTheirFaultsInOrder :
    (State.reset.run = .running ∧ WellFormed.operandCount (State.reset.loadByte State.reset.pc) = none) ∧
    (WellFormed.operandCount ((withCode 0xFE#8 [0x82#8]).loadByte 0xFE#8) = some 2 ∧ 255 < 0xFE + 2) ∧
    (WellFormed.operandCount ((withCode 0xFD#8 [0x82#8, 0x08#8]).loadByte 0xFD#8) = some 2 ∧ ¬ 255 < 0xFD + 2 ∧
      0 < WellFormed.regOperandCount ((withCode 0xFD#8 [0x82#8, 0x08#8]).loadByte 0xFD#8) ∧
      7 < (byteAt (withCode 0xFD#8 [0x82#8, 0x08#8]) (0xFD + 1 + 0)).toNat) ∧
    (WellFormed.operandCount ((withCode 0xFD#8 [0x82#8, 0x07#8]).loadByte 0xFD#8) = some 2 ∧ ¬ 255 < 0xFD + 2 ∧
      ¬ ∃ k, k < 1 ∧ 7 < (byteAt (withCode 0xFD#8 [0x82#8, 0x07#8]) (0xFD + 1 + k)).toNat) := by
  refine ⟨by decide, by decide, by decide, by decide, by decide, ?_⟩
  rintro ⟨k, hk, h⟩
  obtain rfl : k = 0 := by omega
  exact absurd h (by decide)

theorem test_witness_FaultEntryWritesTheRecordAlone :
    Fault.invalidAddress.code = 1#3 ∧ Fault.illegalInstruction.code = 2#3 ∧ Fault.unsupportedOperation.code = 3#3 ∧
      Fault.divisionByZero.code = 4#3 := by decide

theorem test_witness_StoppedMachineNeverChanges :
    State.reset.halt.run ≠ .running ∧ (State.reset.enterFault .illegalInstruction).run ≠ .running := by decide

theorem test_witness_StepIsThePseudocodeOfTheSpec : storesAhead.run = .running := rfl

/-- LDI, ST, ADD, MUL and CMP complete up to address 252. -/
theorem test_witness_threeByteForms : atFC.pc.toNat + 3 ≤ 255 ∧ ¬ (atFC.pc + 1#8).toNat + 3 ≤ 255 := by decide

/-- PUSH, POP, PRN, CALL and the untaken jumps complete up to address 253. -/
theorem test_witness_twoByteForms : atFD.pc.toNat + 2 ≤ 255 ∧ ¬ (atFD.pc + 1#8).toNat + 2 ≤ 255 := by decide

theorem test_witness_AluHasItsTenOperations :
    (State.reset.reg 7#3).toNat ≠ 0 ∧ (State.reset.reg 0#3).toNat = 0 := by decide

theorem test_witness_AluModIsTheUnsignedRemainder : State.reset.reg 0#3 = 0x00#8 ∧ State.reset.reg 7#3 ≠ 0x00#8 := by decide

theorem test_witness_AluWritesOneRegisterOrTheFlag :
    (∃ t, alu .mod 7#3 7#3 State.reset = .ok t) ∧ (∃ t, alu .cmp 0#3 7#3 State.reset = .ok t) := ⟨⟨_, rfl⟩, ⟨_, rfl⟩⟩

theorem test_witness_AluDependsOnTheTwoValuesAlone :
    State.reset.reg 1#3 = atFC.reg 1#3 ∧ State.reset.reg 7#3 = atFC.reg 7#3 ∧ State.reset ≠ atFC := by decide

theorem test_witness_LdiLdiThenAddOrMul :
    (0#3 : Reg) ≠ 7#3 ∧ ({ State.reset with pc := 0xF6#8 } : State).pc.toNat + 9 ≤ 255 := by decide

theorem test_witness_PopLoadsThenIncrements : (0#3 : Reg) ≠ 7#3 ∧ atFD.pc.toNat + 2 ≤ 255 := by decide

/-- The stack pointer at the wrap. -/
theorem test_witness_PushThenPopCopiesAndRestores :
    (0#3 : Reg) ≠ 7#3 ∧ (1#3 : Reg) ≠ 7#3 ∧ (({ State.reset with pc := 0xFB#8 } : State).setReg 7#3 0x00#8).pc.toNat + 4 ≤ 255 := by decide

theorem test_witness_RetPopsTheProgramCounter :
    (withCode 0xFF#8 [0x11#8]).run = .running ∧ (withCode 0xFF#8 [0x11#8]).loadByte (withCode 0xFF#8 [0x11#8]).pc = 0x11#8 := by decide

theorem test_witness_JeqJumpsWhenTheFlagIsSet :
    (State.reset.setE true).flE = true ∧ atFD.flE = false ∧ atFD.pc.toNat + 2 ≤ 255 := by decide

theorem test_witness_JneJumpsWhenTheFlagIsClear :
    State.reset.flE = false ∧ (atFD.setE true).flE = true ∧ (atFD.setE true).pc.toNat + 2 ≤ 255 := by decide

theorem test_witness_CallThenRetRoundTrip :
    ∃ t u : State, atFD.pc.toNat + 2 ≤ 255 ∧ exec (.call 0#3) atFD = .next t ∧ u.sp = t.sp ∧ u.loadByte t.sp = t.loadByte t.sp ∧ u ≠ t := by
  refine ⟨_, (pushWith (fun _ => 0xFF#8) atFD).setE true, by decide, rfl, by decide, by decide, by decide⟩

theorem test_witness_PcGoesToTheTarget :
    ∃ t, State.reset.run = .running ∧ exec (.call 7#3) State.reset = .next t ∧ t.run ≠ .faulted := ⟨_, rfl, rfl, by decide⟩

/-- Each form at the first address where it traps. -/
theorem test_witness_AddressAboveTheTopTraps :
    255 < ({ State.reset with pc := 0xFD#8 } : State).pc.toNat + 3 ∧ 255 < ({ State.reset with pc := 0xFE#8 } : State).pc.toNat + 2 ∧
      ({ State.reset with pc := 0xFE#8 } : State).flE = false ∧ (({ State.reset with pc := 0xFE#8 } : State).setE true).flE = true := by decide

theorem test_witness_OnlyTheHltOpcodeHalts :
    (∃ t, (withCode 0xFF#8 [0x01#8]).run = .running ∧ step (withCode 0xFF#8 [0x01#8]) = .next t ∧ t.run = .halted) ∧
    (∃ t, storesAhead.run = .running ∧ step storesAhead = .next t ∧ t.run ≠ .halted) :=
  ⟨⟨_, rfl, rfl, by decide⟩, ⟨_, rfl, rfl, by decide⟩⟩

theorem test_witness_OnlyCmpWritesTheFlag :
    ∃ t, exec (.add 0#3 1#3) (State.reset.setE true) = .next t ∧ ∀ a b, Instr.add 0#3 1#3 ≠ .cmp a b := ⟨_, rfl, fun _ _ => by simp⟩

theorem test_witness_MemoryChangesOnlyAtTheStoreAddress :
    ∃ t, exec (.push 0#3) atFD = .next t ∧ storeAddress (.push 0#3) atFD ≠ some 0xF4#8 := ⟨_, rfl, by decide⟩

theorem test_witness_RegistersChangeOnlyAsTabled : ∃ t, exec (.pop 1#3) atFD = .next t := ⟨_, rfl⟩

theorem test_witness_FaultsArePrecise :
    ∃ t, State.reset.run = .running ∧ step State.reset = .next t ∧ t.run = .faulted := ⟨_, rfl, rfl, by decide⟩

/-- The lowest address where InvalidAddress is raised. -/
theorem test_witness_InvalidAddressOnlyNearTheTop :
    ∃ t, (withCode 0xFD#8 [0x82#8]).run = .running ∧ step (withCode 0xFD#8 [0x82#8]) = .next t ∧ t.run = .faulted ∧
      t.fcause = Fault.invalidAddress.code := ⟨_, rfl, rfl, by decide, by decide⟩

theorem test_witness_UnknownOpcodeIsIllegal :
    State.reset.run = .running ∧ State.reset.loadByte State.reset.pc ∉ WellFormed.opcodes := by decide

theorem test_witness_FetchSeesTheStore :
    ∃ t u, storesAhead.run = .running ∧ exec (.st 0#3 1#3) storesAhead = .next t ∧ t.run = .running ∧
      storeAddress (.st 0#3 1#3) storesAhead = some 0x03#8 ∧ t.pc = 0x03#8 ∧ step t = .next u :=
  ⟨_, _, rfl, rfl, by decide, by decide, by decide, rfl⟩

theorem test_witness_FetchSeesTheStore_push_and_call :
    (∃ t, exec (.push 0#3) (State.reset.setReg 7#3 0x03#8) = .next t ∧ storeAddress (.push 0#3) (State.reset.setReg 7#3 0x03#8) = some t.pc) ∧
    (∃ t, exec (.call 7#3) State.reset = .next t ∧ storeAddress (.call 7#3) State.reset = some t.pc) :=
  ⟨⟨_, rfl, by decide⟩, ⟨_, rfl, by decide⟩⟩

theorem test_witness_runs : ∃ t, core.run 2 storesAhead = .next t ∧ t.run = .halted := ⟨_, rfl, by decide⟩

theorem test_witness_InstructionRegisterIsUnobservable :
    ∃ t, State.reset.run = .running ∧ step State.reset = .next t ∧ t.run = .faulted := ⟨_, rfl, rfl, by decide⟩

theorem test_witness_EveryStepKeepsTheInvariant :
    ∃ t, State.reset.Inv ∧ step State.reset = .next t := ⟨_, ⟨rfl, rfl, rfl, rfl⟩, rfl⟩

theorem test_witness_EveryRunFromBootHasTheInvariant :
    ∃ s t, State.boot [0x01#8] = some s ∧ core.run 3 s = .next t := ⟨_, _, rfl, rfl⟩

/-- Both sides of the range check. -/
theorem test_witness_MemoryPrimitivesCheckTheRange : 255 < (256 : Nat) ∧ (255 : Nat) ≤ 255 := by decide

theorem test_witness_EqualReadsMeanEqualMemories :
    Memory.wf [(3, 1#8), (255, 2#8)] = true ∧ Memory.wf (Memory.write [(255, 2#8)] 3 1#8) = true ∧
      [(3, 1#8), (255, 2#8)] = Memory.write [(255, 2#8)] 3 1#8 := by decide

end Sys2Proof.Tests
end

section
/-! SUPPORT. The instruction register (rule R19): fetching does not see it, and what a running machine's step can answer, said from the state
in which IR holds the opcode byte. -/

namespace Sys2Proof.Machine

/-- The latest load of IR is the one that counts. -/
@[simp] theorem State.setIr_setIr (s : State) (x y : Byte) : (s.setIr x).setIr y = s.setIr y := rfl

@[simp] theorem fetchOpcode_setIr (s : State) (x : Byte) : fetchOpcode (s.setIr x) = fetchOpcode s := rfl

@[simp] theorem bytesFrom_setIr (s : State) (x : Byte) (a k : Nat) : bytesFrom (s.setIr x) a k = bytesFrom s a k := by
  simp only [bytesFrom_eq, State.setIr_mem]

@[simp] theorem fetch_setIr (s : State) (x : Byte) : fetch (s.setIr x) = fetch s := by
  simp only [fetch, bytesFrom_setIr, State.setIr_pc]

/-- The state in which a running machine's instruction, or the fault of its fetch, takes effect: IR holds the opcode byte (rules R19, R50). -/
def State.loaded (s : State) : State := s.setIr (fetchOpcode s)

@[simp] theorem State.loaded_ir (s : State) : s.loaded.ir = s.loadByte s.pc := rfl

@[simp] theorem State.loaded_run (s : State) : s.loaded.run = s.run := rfl

/-- Everything a running machine's step can answer: HLT's halt, one of the two faults a program can reach, or a next state that keeps the
control state with IR loaded. -/
theorem step_running_cases {s : State} (hr : s.run = .running) :
    (fetch s = .ok .hlt ∧ step s = .next s.loaded.halt) ∨
    (∃ f, (f = .invalidAddress ∨ f = .illegalInstruction) ∧ step s = .next (s.loaded.enterFault f)) ∨
    ∃ t, step s = .next t ∧ KeepsControl s.loaded t := by
  cases hf : fetch s with
  | error f => exact .inr (.inl ⟨f, fetch_error hf, step_of_fetch_error hr hf⟩)
  | ok i =>
    have hs : step s = exec i s.loaded := step_of_fetch hr hf
    rw [hs]
    obtain ⟨rfl, halts⟩ | faults | completes := exec_cases i s.loaded
    · exact .inl ⟨rfl, halts⟩
    · exact .inr (.inl ⟨_, .inl rfl, faults⟩)
    · exact .inr (.inr completes)

/-- A running machine's step loads IR before anything reads it. -/
theorem step_setIr {s : State} (hr : s.run = .running) (x : Byte) : step (s.setIr x) = step s := by
  have hr' : (s.setIr x).run = .running := hr
  have hf : fetch (s.setIr x) = fetch s := fetch_setIr s x
  cases h : fetch s with
  | ok i => rw [step_of_fetch hr h, step_of_fetch hr' (hf.trans h), fetchOpcode_setIr, State.setIr_setIr]
  | error f => rw [step_of_fetch_error hr h, step_of_fetch_error hr' (hf.trans h), fetchOpcode_setIr, State.setIr_setIr]

/-- However a running machine's step ends, IR holds the byte that stood at pc. -/
theorem step_ir {s t : State} (hr : s.run = .running) (ht : step s = .next t) : t.ir = s.loadByte s.pc := by
  obtain ⟨-, e⟩ | ⟨f, -, e⟩ | ⟨u, e, keeps⟩ := step_running_cases hr <;> cases e.symm.trans ht
  · rfl
  · rfl
  · exact keeps.ir

/-- A step that ends Faulted has entered a fault, which copies IR into FOP (rules R19, R101). -/
theorem step_fop_of_faulted {s t : State} (hr : s.run = .running) (ht : step s = .next t) (hfault : t.run = .faulted) : t.fop = t.ir := by
  obtain ⟨-, e⟩ | ⟨f, -, e⟩ | ⟨u, e, keeps⟩ := step_running_cases hr <;> cases e.symm.trans ht
  case inl => cases hfault
  case inr.inl => rfl
  case inr.inr =>
    have hrun : t.run = .running := by rw [keeps.run, State.loaded_run, hr]
    rw [hrun] at hfault
    cases hfault

/-- Settles O53: the step overwrites IR before anything reads it, and every way it can end leaves IR as loaded. -/
theorem instructionRegisterIsUnobservable : Obligations.InstructionRegisterIsUnobservable := by
  intro s hr
  exact ⟨step_setIr hr, fun t ht => ⟨step_ir hr ht, step_fop_of_faulted hr ht⟩⟩

end Sys2Proof.Machine
end

section
/-! SUPPORT. What `MemWrite` answers in range and out of range (rule R26), and what `MemRead` gives after it. -/

namespace Sys2Proof.Machine

theorem memWrite_lt {s : State} {a : Nat} (h : a < 256) (v : Byte) : memWrite s a v = .ok { s with mem := s.mem.write a v } := by
  simp [memWrite, Config.memSize, h]

theorem memWrite_ge {s : State} {a : Nat} (h : 256 ≤ a) (v : Byte) : memWrite s a v = .error .invalidAddress := by
  simp [memWrite, Config.memSize, Nat.not_lt.mpr h]

/-- `MemWrite` at an address held in a byte never faults (rule R26). -/
theorem memWrite_byte (s : State) (a v : Byte) : memWrite s a.toNat v = .ok (s.storeByte a v) := memWrite_lt a.isLt v

/-- `MemRead` sees one cell: states that agree on it answer alike, out of range too. -/
theorem memRead_congr {s t : State} {a : Nat} (h : t.mem.read a = s.mem.read a) : memRead t a = memRead s a := by
  simp only [memRead, h]

/-- In range, `MemWrite` completes, the cell then reads as the value written, and every other address reads as before. -/
theorem memWrite_changes_one_cell (s : State) {a : Nat} (h : a < 256) (v : Byte) :
    ∃ t, memWrite s a v = .ok t ∧ memRead t a = .ok v ∧ ∀ b : Nat, b ≠ a → memRead t b = memRead s b := by
  refine ⟨_, memWrite_lt h v, ?same, fun b hb => memRead_congr ?other⟩
  case same => rw [memRead_lt h, Memory.read_write_same]
  case other => exact Memory.read_write_of_ne s.mem hb v

/-- Settles O57: each primitive answers by its range check, and the value of a byte is below 256. -/
theorem memoryPrimitivesCheckTheRange : Obligations.MemoryPrimitivesCheckTheRange := by
  refine ⟨fun s a above => ?outOfRange, fun s a upTo => ?inRange, fun s a => ?heldInByte⟩
  case outOfRange => exact ⟨memRead_ge above, memWrite_ge above⟩
  case inRange =>
    have below : a < 256 := Nat.lt_succ_of_le upTo
    exact ⟨memRead_lt below, memWrite_changes_one_cell s below⟩
  case heldInByte => exact ⟨memRead_byte s a, memWrite_byte s a⟩

end Sys2Proof.Machine
end

section
/-! SUPPORT. What the decoder reads: the opcode selects the operand form, and the operand bytes that the encoder writes give the instruction
back. The operand order of rule R41 is that of the encoder's `Instr.operandBytes`. -/

namespace Sys2Proof

/-- An opcode's byte hands the bytes after it to that opcode's operand form (rule R38). -/
theorem decode_byte_cons (o : Opcode) (rest : List Byte) : decode (o.byte :: rest) = decodeOperands o rest := by
  simp only [decode, Opcode.ofByte_byte]

theorem decodeR_regByte (k : Reg → Instr) (r : Reg) (rest : List Byte) : decodeR k (regByte r :: rest) = .ok (k r, rest) := by
  simp only [decodeR, regOperand_regByte]

theorem decodeRR_regByte (k : Reg → Reg → Instr) (a b : Reg) (rest : List Byte) :
    decodeRR k (regByte a :: regByte b :: rest) = .ok (k a b, rest) := by
  simp only [decodeRR, regOperand_regByte]

theorem decodeRI_regByte (k : Reg → Byte → Instr) (r : Reg) (v : Byte) (rest : List Byte) :
    decodeRI k (regByte r :: v :: rest) = .ok (k r v, rest) := by
  simp only [decodeRI, regOperand_regByte]

/-- The operand bytes the encoder writes are read back in the same order, by the operand form of each opcode. -/
theorem decodeOperands_operandBytes (i : Instr) (rest : List Byte) : decodeOperands i.opcode (i.operandBytes ++ rest) = .ok (i, rest) := by
  cases i with
  | hlt | ret => rfl
  | push r | pop r | prn r | call r | jmp r | jeq r | jne r => exact decodeR_regByte _ r rest
  | ldi r v => exact decodeRI_regByte _ r v rest
  | st a b | add a b | mul a b | cmp a b => exact decodeRR_regByte _ a b rest

/-- An instruction is decoded from its own bytes, whatever bytes follow. -/
theorem decode_encode (i : Instr) (rest : List Byte) : decode (encode i ++ rest) = .ok (i, rest) :=
  (decode_byte_cons i.opcode (i.operandBytes ++ rest)).trans (decodeOperands_operandBytes i rest)

/-- A register operand byte is the register's index as a number (rule R37). -/
theorem regByte_toNat (r : Reg) : (regByte r).toNat = r.toNat :=
  (BitVec.toNat_append 0#5 r).trans (Nat.zero_or r.toNat)

/-- Settles O8: each clause is the round trip of one instruction, whose bytes the encoder lays out in the table's order. -/
theorem operandsStandInTheTableOrder : Obligations.OperandsStandInTheTableOrder := by
  refine ⟨fun a b rest => ?alu, fun d src rest => ?st, fun r v rest => ?ldi, regByte_toNat, ?worked⟩
  case alu => exact ⟨decode_encode (.add a b) rest, decode_encode (.mul a b) rest, decode_encode (.cmp a b) rest⟩
  case st => exact decode_encode (.st d src) rest
  case ldi => exact decode_encode (.ldi r v) rest
  case worked => exact ⟨decode_encode (.ldi 0#3 8#8) _, decode_encode (.prn 0#3) _, decode_encode .hlt []⟩

end Sys2Proof
end

section
/-! SUPPORT. The ALU (rules R59 to R73): the value each operation puts in `x[a]` as a natural number, what the write of a register or of the
flag leaves alone, and exactly when the ALU faults. -/

namespace Sys2Proof.Machine

open Sys2Proof.Claims

/-! ### Values -/

theorem narrow_toNat (n : Nat) : (narrow n).toNat = n % 256 := BitVec.toNat_ofNat n 8

theorem narrow_toNat_of_lt {n : Nat} (h : n < 256) : (narrow n).toNat = n := (narrow_toNat n).trans (Nat.mod_eq_of_lt h)

/-- A remainder of two bytes is a byte (rule R65). -/
theorem narrow_mod_toNat (x y : Byte) : (narrow (x.toNat % y.toNat)).toNat = x.toNat % y.toNat :=
  narrow_toNat_of_lt ((Nat.mod_le _ _).trans_lt x.isLt)

/-- A left shift by one doubles modulo 256 and drops bit 7 (rule R60). -/
theorem narrow_shiftLeft_one_toNat (x : Byte) : (narrow (x.toNat <<< 1)).toNat = 2 * x.toNat % 256 := by
  rw [narrow_toNat, Nat.shiftLeft_eq, Nat.pow_one, Nat.mul_comm]

/-- A right shift by one halves (rule R60). -/
theorem narrow_shiftRight_one_toNat (x : Byte) : (narrow (x.toNat >>> 1)).toNat = x.toNat / 2 :=
  narrow_toNat_of_lt ((Nat.div_le_self _ _).trans_lt x.isLt)

/-- The bitwise complement of a byte is its distance from 255 (rule R60). -/
theorem xor_ones_toNat (x : Byte) : (x ^^^ 0xFF#8).toNat = 255 - x.toNat := by
  have complement : x ^^^ 0xFF#8 = ~~~x := BitVec.xor_allOnes
  rw [complement, BitVec.toNat_not]

theorem equalFlag_eq_true_iff (x y : Byte) : equalFlag x y = true ↔ x = y := beq_iff_eq

/-! ### Frames -/

theorem regsKept_setReg (s : State) (r : Reg) (v : Byte) : RegsKept [r] s (s.setReg r v) :=
  fun _ other => s.reg_setReg_of_ne (List.ne_of_not_mem_cons other) v

theorem writesOnlyReg_setReg (s : State) (r : Reg) (v : Byte) : WritesOnlyReg r s (s.setReg r v) := ⟨regsKept_setReg s r v, rfl⟩

theorem regsKept_setE (s : State) (e : Bool) : RegsKept [] s (s.setE e) := fun _ _ => rfl

theorem KeepsControl.controlKept {s t : State} (h : KeepsControl s t) : ControlKept s t := ⟨h.run, h.fcause, h.fpc, h.fop, h.ir⟩

/-- Whatever the operation, the ALU leaves memory, pc, the console output and the control state alone (rule R59). -/
theorem alu_frame {op : AluOp} {a b : Reg} {s t : State} (h : alu op a b s = .ok t) :
    MemKept [] s t ∧ t.pc = s.pc ∧ t.out = s.out ∧ ControlKept s t := by
  have control : ControlKept s t := (KeepsControl.alu h).controlKept
  obtain ⟨v, e⟩ | ⟨v, e⟩ | ⟨f, e⟩ := alu_cases op a b s <;> cases e.symm.trans h
  · exact ⟨fun c _ => s.setReg_loadByte a v c, rfl, rfl, control⟩
  · exact ⟨fun c _ => s.setE_loadByte v c, rfl, rfl, control⟩

/-- An operation that writes `x[a]` completes, leaves a value there of which `P` holds, and changes nothing else (rule R59). -/
theorem alu_writes_reg {op : AluOp} {a b : Reg} {s : State} {v : Byte} (P : Byte → Prop) (writes : alu op a b s = .ok (s.setReg a v))
    (value : P v) : ∃ t, alu op a b s = .ok t ∧ P (t.reg a) ∧ WritesOnlyReg a s t :=
  ⟨_, writes, by rwa [State.reg_setReg_same], writesOnlyReg_setReg s a v⟩

/-! ### Faults -/

/-- MOD with a divisor other than zero writes the remainder (rule R65). -/
theorem alu_mod_of_ne_zero {a b : Reg} {s : State} (h : s.reg b ≠ 0x00#8) :
    alu .mod a b s = .ok (s.setReg a (narrow ((s.reg a).toNat % (s.reg b).toNat))) := if_neg h

/-- The ALU faults in two ways alone: MOD with a zero divisor (rule R65), and a selector outside the ten (rule R73). -/
theorem alu_error_iff (op : AluOp) (a b : Reg) (s : State) (f : Fault) :
    alu op a b s = .error f ↔
      (op = .mod ∧ s.reg b = 0x00#8 ∧ f = .divisionByZero) ∨ (op = .other ∧ f = .unsupportedOperation) := by
  cases op with
  | mod =>
    by_cases h : s.reg b = 0x00#8
    · simp [alu, h, eq_comm]
    · simp [alu_mod_of_ne_zero h, h]
  | other => simp [alu, eq_comm]
  | add | mul | and | or | xor | not | shl | shr | cmp => simp [alu]

theorem alu_mod_of_eq_zero {a b : Reg} {s : State} (h : s.reg b = 0x00#8) : alu .mod a b s = .error .divisionByZero :=
  (alu_error_iff ..).mpr (.inl ⟨rfl, h, rfl⟩)

/-- MOD with a divisor other than zero puts the remainder in `x[a]` alone (rule R65). -/
theorem alu_mod_writes_remainder {a b : Reg} {s : State} (h : s.reg b ≠ 0x00#8) :
    ∃ t, alu .mod a b s = .ok t ∧ (t.reg a).toNat = (s.reg a).toNat % (s.reg b).toNat ∧ WritesOnlyReg a s t :=
  alu_writes_reg (·.toNat = _) (alu_mod_of_ne_zero h) (narrow_mod_toNat _ _)

/-! ### The obligations -/

/-- Settles O20: nine operations write their value to `x[a]`, CMP writes the flag, and MOD's divisor decides between a value and the fault. -/
theorem aluHasItsTenOperations : Obligations.AluHasItsTenOperations := by
  intro a b s
  refine ⟨?add, ?mul, fun divisor => ?mod, fun zero => ?modZero, ?and, ?or, ?xor, ?not, ?shl, ?shr, ?cmp⟩
  case add => exact alu_writes_reg (·.toNat = _) rfl (narrow_toNat _)
  case mul => exact alu_writes_reg (·.toNat = _) rfl (narrow_toNat _)
  case mod => exact alu_mod_writes_remainder (BitVec.toNat_ne.mpr divisor)
  case modZero => exact alu_mod_of_eq_zero (BitVec.eq_of_toNat_eq zero)
  case and => exact alu_writes_reg (· = _) rfl rfl
  case or => exact alu_writes_reg (· = _) rfl rfl
  case xor => exact alu_writes_reg (· = _) rfl rfl
  case not =>
    obtain ⟨t, ok, value, frame⟩ : ∃ t, alu .not a b s = .ok t ∧ t.reg a = s.reg a ^^^ 0xFF#8 ∧ WritesOnlyReg a s t :=
      alu_writes_reg (· = _) rfl rfl
    exact ⟨t, ok, value, value ▸ xor_ones_toNat _, frame⟩
  case shl => exact alu_writes_reg (·.toNat = _) rfl (narrow_shiftLeft_one_toNat _)
  case shr => exact alu_writes_reg (·.toNat = _) rfl (narrow_shiftRight_one_toNat _)
  case cmp => exact ⟨_, rfl, equalFlag_eq_true_iff _ _, regsKept_setE s _⟩

/-- Settles O21: with a divisor other than zero the ALU writes the remainder to `x[a]` alone; a zero divisor is its fault. -/
theorem aluModIsTheUnsignedRemainder : Obligations.AluModIsTheUnsignedRemainder := by
  intro a b s
  refine ⟨alu_mod_of_eq_zero, fun divisor => ?_⟩
  obtain ⟨t, ok, remainder, regs, flag⟩ := alu_mod_writes_remainder (a := a) divisor
  have positive : 0 < (s.reg b).toNat := Nat.pos_of_ne_zero (BitVec.toNat_ne.mp divisor)
  have bound : (t.reg a).toNat < (s.reg b).toNat := remainder ▸ Nat.mod_lt _ positive
  exact ⟨t, ok, remainder, bound, regs, flag, alu_frame ok⟩

/-- Settles O24: of the ALU's two faults only the one of a selector outside the ten is UnsupportedOperation. -/
theorem otherAluSelectorIsUnsupported : Obligations.OtherAluSelectorIsUnsupported := by
  intro op a b s
  rw [alu_error_iff]
  constructor
  · rintro (⟨-, -, isDivision⟩ | ⟨other, -⟩)
    · cases isDivision
    · exact other
  · exact fun other => .inr ⟨other, rfl⟩

end Sys2Proof.Machine
end

section
/-! SUPPORT. What PUSH and POP leave when they complete (rules R81, R82), and what of it the next instruction reads. -/

namespace Sys2Proof.Machine

/-- A sequential instruction whose body cannot fault completes where its successor exists (rules R54, R55). -/
theorem sequential_ok_of_pure {n : Nat} (f : State → State) {s : State} (hpc : s.pc.toNat + n + 1 < 256) :
    sequential n (fun s => .ok (f s)) s = .next ((f s).setPc (BitVec.ofNat 8 (s.pc.toNat + n + 1))) :=
  sequential_ok hpc rfl

/-- A PUSH that completes (rule R81): `x[r]` is read after the decrement. -/
theorem exec_push {r : Reg} {s : State} (hpc : s.pc.toNat + 2 < 256) :
    exec (.push r) s = .next ((s.decSp.storeByte (s.sp - 1#8) (s.decSp.reg r)).setPc (BitVec.ofNat 8 (s.pc.toNat + 2))) := by
  rw [← pushWith_eq (fun s1 => s1.reg r)]
  exact sequential_ok_of_pure _ hpc

/-- A POP that completes (rule R82): `x[r]` is written before the increment. -/
theorem exec_pop {r : Reg} {s : State} (hpc : s.pc.toNat + 2 < 256) :
    exec (.pop r) s = .next ((s.setReg r (s.loadByte s.sp)).incSp.setPc (BitVec.ofNat 8 (s.pc.toNat + 2))) :=
  sequential_ok_of_pure (fun s => (s.setReg r (s.loadByte s.sp)).incSp) hpc

/-- PUSH of a register other than R7 moves R7 one down modulo 256 and leaves the register's value in the cell there (rule R81). -/
theorem exec_push_of_ne_sp {r : Reg} {s : State} (hr : r ≠ 7#3) (hpc : s.pc.toNat + 2 < 256) :
    ∃ t, exec (.push r) s = .next t ∧ t.sp = s.sp - 1#8 ∧ t.loadByte t.sp = s.reg r ∧ t.pc.toNat = s.pc.toNat + 2 := by
  refine ⟨_, exec_push hpc, ?sp, ?cell, ?pc⟩
  case sp => exact s.sp_decSp
  case cell =>
    have kept : s.decSp.reg r = s.reg r := (s.reg_decSp r).trans (if_neg hr)
    simp [State.loadByte_storeByte, kept]
  case pc => exact narrow_toNat_of_lt hpc

/-- POP into a register other than R7 copies the byte at R7 there and moves R7 one up modulo 256 (rule R82). -/
theorem exec_pop_of_ne_sp {r : Reg} {s : State} (hr : r ≠ 7#3) (hpc : s.pc.toNat + 2 < 256) :
    ∃ t, exec (.pop r) s = .next t ∧ t.reg r = s.loadByte s.sp ∧ t.sp = s.sp + 1#8 := by
  refine ⟨_, exec_pop hpc, ?reg, ?sp⟩
  case reg => simp [State.reg_incSp, hr]
  case sp => simp [State.sp_setReg, hr]

/-- Settles O31: POP reads the cell that PUSH wrote, and its increment of R7 undoes PUSH's decrement, modulo 256. -/
theorem pushThenPopCopiesAndRestores : Obligations.PushThenPopCopiesAndRestores := by
  intro r q s hr hq hpc
  obtain ⟨t, pushes, down, cell, pc⟩ := exec_push_of_ne_sp (s := s) hr (by omega)
  obtain ⟨u, pops, copied, up⟩ := exec_pop_of_ne_sp (s := t) hq (by omega)
  have restored : u.sp = s.sp := by rw [up, down, BitVec.sub_add_cancel]
  exact ⟨t, u, pushes, pops, copied.trans cell, restored⟩

end Sys2Proof.Machine
end

section
/-! SUPPORT. What fetch reads first is the opcode byte at pc, whose address is always in range (rule R51); and RET, whose fetch needs no byte
but that one (rule R87). -/

namespace Sys2Proof.Machine

open Sys2Proof.Claims

/-- The first byte read from an address held in a byte is always there (rule R51). -/
theorem bytesFrom_byte_succ (s : State) (a : Byte) (k : Nat) :
    bytesFrom s a.toNat (k + 1) = s.loadByte a :: bytesFrom s (a.toNat + 1) k := by
  rw [bytesFrom, memRead_byte]

/-- The opcode whose byte stands at pc decides how the bytes after it are read (rules R38, R50). -/
theorem fetch_of_opcode {s : State} {o : Opcode} {i : Instr} {rest : List Byte} (opcode : s.loadByte s.pc = o.byte)
    (operands : decodeOperands o (bytesFrom s (s.pc.toNat + 1) 2) = .ok (i, rest)) : fetch s = .ok i := by
  have decoded : decode (bytesFrom s s.pc.toNat 3) = .ok (i, rest) := by
    rw [bytesFrom_byte_succ, opcode, decode_byte_cons, operands]
  simp only [fetch, decoded]

/-- RET has no operand byte, so its opcode byte alone makes a running machine execute it, wherever it stands (rules R51, R87). -/
theorem step_ret {s : State} (running : s.run = .running) (opcode : s.loadByte s.pc = 0x11#8) : step s = exec .ret (s.setIr 0x11#8) := by
  have fetched : fetch s = .ok .ret := fetch_of_opcode (o := .ret) opcode rfl
  rw [step_of_fetch running fetched, fetchOpcode, opcode]

/-- RET completes from every state: R7 goes up by one and pc is the byte that R7 addressed (rule R87). -/
theorem exec_ret (s : State) : exec .ret s = .next (s.incSp.setPc (s.loadByte s.sp)) := rfl

/-- The increment of the stack pointer changes no register but R7. -/
theorem regsKept_incSp (s : State) : RegsKept [7#3] s s.incSp := regsKept_setReg s 7#3 (s.sp + 1#8)

/-- The stack pointer goes up by one modulo 256 (rules R11, R84). -/
theorem incSp_sp_toNat (s : State) : s.incSp.sp.toNat = (s.sp.toNat + 1) % 256 := by
  rw [State.sp_incSp]
  exact BitVec.toNat_add s.sp 1#8

/-- Settles O33: the step is exec of RET after IR is loaded; that load and RET's write of pc leave the registers, memory, FL, OUT and the status
alone, and the increment of R7 changes R7. -/
theorem retPopsTheProgramCounter : Obligations.RetPopsTheProgramCounter := by
  refine ⟨decode_encode .ret [], fun s running opcode => ?_⟩
  have completes := exec_ret (s.setIr 0x11#8)
  refine ⟨_, (step_ret running opcode).trans completes, completes, ?pc, ?sp, ?regs, ?mem, ?fl, ?out, ?status, ?ir⟩
  case pc => rfl
  case sp => exact incSp_sp_toNat (s.setIr 0x11#8)
  case regs => exact regsKept_incSp (s.setIr 0x11#8)
  case mem => exact fun a _ => (s.setIr 0x11#8).incSp_loadByte a
  case fl => rfl
  case out => rfl
  case status => rfl
  case ir => rfl

end Sys2Proof.Machine
end

section
/-! SUPPORT. Placing an image (rules R113, R114): what each cell reads as afterwards, and what booting answers. -/

namespace Sys2Proof.Machine

/-- Placing bytes changes no cell outside the range they are placed in. -/
theorem placeBytes_read_outside (bs : List Byte) : ∀ (s : State) {a b : Nat}, b < a ∨ a + bs.length ≤ b →
    (placeBytes s a bs).mem.read b = s.mem.read b := by
  induction bs with
  | nil => intro s a b _; rfl
  | cons v bs ih =>
    intro s a b outside
    rw [List.length_cons] at outside
    exact (ih _ (by omega)).trans (Memory.read_write_of_ne s.mem (by omega) v)

/-- Byte `i` of the bytes placed from `a` stands at `a + i`: its own write puts it there, and the later ones are at higher addresses. -/
theorem placeBytes_read_inside (bs : List Byte) : ∀ (s : State) (a i : Nat) (h : i < bs.length),
    (placeBytes s a bs).mem.read (a + i) = bs[i] := by
  induction bs with
  | nil => intro s a i h; cases h
  | cons v bs ih =>
    intro s a i h
    cases i with
    | zero => exact (placeBytes_read_outside bs _ (.inl a.lt_succ_self)).trans (Memory.read_write_same s.mem a v)
    | succ i =>
      rw [show a + (i + 1) = a + 1 + i by omega, List.getElem_cons_succ]
      exact ih _ (a + 1) i (Nat.lt_of_succ_lt_succ h)

/-- Booting an image that fits places it over the reset state (rule R114). -/
theorem boot_of_length_le {image : List Byte} (h : image.length ≤ 256) : State.boot image = some (placeBytes State.reset 0 image) := if_pos h

/-- Whatever boots is the reset state with the image placed. -/
theorem eq_placeBytes_of_boot {image : List Byte} {s : State} (h : State.boot image = some s) : s = placeBytes State.reset 0 image :=
  (Option.some.inj (Option.ite_none_right_eq_some.mp h).2).symm

/-- Booting changes nothing of the reset state but memory (rule R112). -/
theorem boot_frame {image : List Byte} {s : State} (h : State.boot image = some s) : s = { State.reset with mem := s.mem } := by
  rw [eq_placeBytes_of_boot h]
  exact placeBytes_frame image State.reset 0

/-- Settles O1: booting leaves pc and the run state as reset has them, and the first step of a Running machine loads IR with the byte at pc. -/
theorem entryPointIsAddressZero : Obligations.EntryPointIsAddressZero := by
  intro image s boots
  have frame := boot_frame boots
  have pc : s.pc = 0x00#8 := congrArg State.pc frame
  have running : s.run = .running := congrArg State.run frame
  refine ⟨pc, running, fun t steps => ?_⟩
  calc t.ir = s.loadByte s.pc := step_ir running steps
    _ = Claims.byteAt s 0 := congrArg s.loadByte pc

/-- Settles O3: the image's bytes stand where they were placed, and past them memory is still the zeros of reset. -/
theorem bootPlacesTheImageFromAddressZero : Obligations.BootPlacesTheImageFromAddressZero := by
  intro image fits
  refine ⟨_, boot_of_length_le fits, fun a h => ?inImage, fun a h _ => ?pastImage⟩
  case inImage =>
    have placed := placeBytes_read_inside image State.reset 0 a h
    rwa [Nat.zero_add] at placed
  case pastImage => exact placeBytes_read_outside image State.reset (.inr (by omega))

end Sys2Proof.Machine
end

section
/-! SUPPORT. The decoder against the encoder and against the check on raw bytes (rules R37 to R44): each operand form either reads as many bytes
as the opcode table gives it, or names what is wrong; and what it reads is what the encoder writes. -/

namespace Sys2Proof

/-- Settles O5: the opcode byte selects the operand form, which reads back the operand bytes that the encoder wrote. -/
theorem decodeOfEncodeIsTheInstruction : Obligations.DecodeOfEncodeIsTheInstruction := decode_encode

/-! ### What decodes is the encoding -/

theorem decodeR_eq_ok {k : Reg → Instr} {os rest : List Byte} {i : Instr} (h : decodeR k os = .ok (i, rest)) :
    ∃ r, i = k r ∧ os = regByte r :: rest := by
  unfold decodeR at h
  split at h
  next o os =>
    cases named : regOperand o with
    | error e => simp [named] at h
    | ok r =>
      obtain ⟨rfl, rfl⟩ : k r = i ∧ os = rest := by simpa [named] using h
      exact ⟨r, rfl, by rw [← regByte_of_regOperand named]⟩
  next => cases h

theorem decodeRR_eq_ok {k : Reg → Reg → Instr} {os rest : List Byte} {i : Instr} (h : decodeRR k os = .ok (i, rest)) :
    ∃ a b, i = k a b ∧ os = regByte a :: regByte b :: rest := by
  unfold decodeRR at h
  split at h
  next o p os =>
    cases named : regOperand o with
    | error e => simp [named] at h
    | ok a =>
      cases named' : regOperand p with
      | error e => simp [named, named'] at h
      | ok b =>
        obtain ⟨rfl, rfl⟩ : k a b = i ∧ os = rest := by simpa [named, named'] using h
        exact ⟨a, b, rfl, by rw [← regByte_of_regOperand named, ← regByte_of_regOperand named']⟩
  next => cases h
  next => cases h

theorem decodeRI_eq_ok {k : Reg → Byte → Instr} {os rest : List Byte} {i : Instr} (h : decodeRI k os = .ok (i, rest)) :
    ∃ r v, i = k r v ∧ os = regByte r :: v :: rest := by
  unfold decodeRI at h
  split at h
  next o v os =>
    cases named : regOperand o with
    | error e => simp [named] at h
    | ok r =>
      obtain ⟨rfl, rfl⟩ : k r v = i ∧ os = rest := by simpa [named] using h
      exact ⟨r, v, rfl, by rw [← regByte_of_regOperand named]⟩
  next => cases h
  next => cases h

/-- An operand form yields an instruction of its own opcode, and has read that instruction's operand bytes. -/
theorem decodeOperands_eq_ok {o : Opcode} {os rest : List Byte} {i : Instr} (h : decodeOperands o os = .ok (i, rest)) :
    i.opcode = o ∧ os = i.operandBytes ++ rest := by
  cases o with
  | hlt | ret =>
    cases h
    exact ⟨rfl, rfl⟩
  | push | pop | prn | call | jmp | jeq | jne =>
    obtain ⟨r, rfl, rfl⟩ := decodeR_eq_ok h
    exact ⟨rfl, rfl⟩
  | ldi =>
    obtain ⟨r, v, rfl, rfl⟩ := decodeRI_eq_ok h
    exact ⟨rfl, rfl⟩
  | st | add | mul | cmp =>
    obtain ⟨a, b, rfl, rfl⟩ := decodeRR_eq_ok h
    exact ⟨rfl, rfl⟩

/-- Settles O6: all 8 bits of the opcode byte are compared, and a register operand byte decodes only with zeros in bits 7:3. -/
theorem decodedBytesAreTheEncoding : Obligations.DecodedBytesAreTheEncoding := by
  intro bs rest i h
  cases bs with
  | nil => cases h
  | cons op os =>
    cases known : Opcode.ofByte op with
    | none => simp [decode, known] at h
    | some o =>
      obtain ⟨rfl, rfl⟩ := decodeOperands_eq_ok (o := o) (by simpa [decode, known] using h)
      rw [← Opcode.byte_of_ofByte known]
      rfl

/-! ### What the decoder accepts -/

/-- The opcode table on raw bytes agrees with the decoder's (rules R37, R42, R44). -/
theorem operandCount_eq (op : Byte) : WellFormed.operandCount op = (Opcode.ofByte op).map (·.format.operands) := by
  have table : ∀ op : BitVec 8, WellFormed.operandCount op = (Opcode.ofByte op).map (·.format.operands) := by decide
  exact table op

theorem exists_byte_of_operandCount {op : Byte} {n : Nat} (h : WellFormed.operandCount op = some n) :
    ∃ o : Opcode, o.byte = op ∧ o.format.operands = n := by
  rw [operandCount_eq, Option.map_eq_some_iff] at h
  obtain ⟨o, known, count⟩ := h
  exact ⟨o, Opcode.byte_of_ofByte known, count⟩

theorem decode_unknown {op : Byte} (h : WellFormed.operandCount op = none) (rest : List Byte) :
    decode (op :: rest) = .error (.unknownOpcode op) := by
  rw [operandCount_eq, Option.map_eq_none_iff] at h
  simp only [decode, h]

/-- A byte up to 7 names a register (rule R39). -/
theorem regOperand_of_regByteOk {o : Byte} (h : WellFormed.regByteOk o = true) : ∃ r, regOperand o = .ok r := by
  have high : o.extractLsb' 3 5 = 0#5 := by
    have small : o.toNat ≤ 7 := of_decide_eq_true h
    apply BitVec.eq_of_toNat_eq
    rw [BitVec.extractLsb'_toNat, Nat.shiftRight_eq_div_pow, Nat.div_eq_of_lt (by omega)]
    rfl
  exact ⟨_, if_pos high⟩

/-- A byte above 7 is refused by name (rule R39, the spec's decision D5). -/
theorem regOperand_of_not_regByteOk {o : Byte} (h : ¬ WellFormed.regByteOk o = true) : regOperand o = .error (.badRegister o) := by
  cases named : regOperand o with
  | ok r => exact absurd (regByte_of_regOperand named ▸ Laws.EncodedWell.regByteOk_regByte r) h
  | error e =>
    unfold regOperand at named
    split at named
    · cases named
    · exact named.symm

/-- What reading `n` operand bytes can answer when the first `m` of them name registers, in the order of rule R102: a missing byte, a bad
register byte, or an instruction and the bytes after it. -/
def ReadsOperands (n m : Nat) (os : List Byte) (answer : Except DecodeError (Instr × List Byte)) : Prop :=
  if os.length < n then answer = .error .missingOperand
  else if (os.take m).all WellFormed.regByteOk = true then ∃ i, answer = .ok (i, os.drop n)
  else ∃ o, answer = .error (.badRegister o)

theorem readsOperands_decodeR (k : Reg → Instr) (os : List Byte) : ReadsOperands 1 1 os (decodeR k os) := by
  cases os with
  | nil => rfl
  | cons o os =>
    by_cases ok : WellFormed.regByteOk o = true
    · obtain ⟨r, named⟩ := regOperand_of_regByteOk ok
      simp [ReadsOperands, decodeR, ok, named]
    · simp [ReadsOperands, decodeR, ok, regOperand_of_not_regByteOk ok]

theorem readsOperands_decodeRI (k : Reg → Byte → Instr) (os : List Byte) : ReadsOperands 2 1 os (decodeRI k os) := by
  match os with
  | [] => rfl
  | [_] => rfl
  | o :: v :: os =>
    by_cases ok : WellFormed.regByteOk o = true
    · obtain ⟨r, named⟩ := regOperand_of_regByteOk ok
      simp [ReadsOperands, decodeRI, ok, named]
    · simp [ReadsOperands, decodeRI, ok, regOperand_of_not_regByteOk ok]

theorem readsOperands_decodeRR (k : Reg → Reg → Instr) (os : List Byte) : ReadsOperands 2 2 os (decodeRR k os) := by
  match os with
  | [] => rfl
  | [_] => rfl
  | o :: p :: os =>
    by_cases ok : WellFormed.regByteOk o = true
    · obtain ⟨a, named⟩ := regOperand_of_regByteOk ok
      by_cases ok' : WellFormed.regByteOk p = true
      · obtain ⟨b, named'⟩ := regOperand_of_regByteOk ok'
        simp [ReadsOperands, decodeRR, ok, ok', named, named']
      · simp [ReadsOperands, decodeRR, ok, ok', named, regOperand_of_not_regByteOk ok']
    · simp [ReadsOperands, decodeRR, ok, regOperand_of_not_regByteOk ok]

/-- Every opcode reads the operand bytes that the raw table gives it (rules R37, R42). -/
theorem readsOperands_decodeOperands (o : Opcode) (os : List Byte) :
    ReadsOperands o.format.operands (WellFormed.regOperandCount o.byte) os (decodeOperands o os) := by
  cases o with
  | hlt | ret => exact ⟨_, rfl⟩
  | push | pop | prn | call | jmp | jeq | jne => exact readsOperands_decodeR _ os
  | ldi => exact readsOperands_decodeRI _ os
  | st | add | mul | cmp => exact readsOperands_decodeRR _ os

/-- Bytes after a known opcode byte are read as the raw table says. -/
theorem readsOperands_decode {op : Byte} {n : Nat} (h : WellFormed.operandCount op = some n) (os : List Byte) :
    ReadsOperands n (WellFormed.regOperandCount op) os (decode (op :: os)) := by
  obtain ⟨o, rfl, rfl⟩ := exists_byte_of_operandCount h
  rw [decode_byte_cons]
  exact readsOperands_decodeOperands o os

/-- Reading operands succeeds exactly when the bytes are all there and the register bytes among them are legal. -/
theorem ReadsOperands.isOk_iff {n m : Nat} {os : List Byte} {answer : Except DecodeError (Instr × List Byte)}
    (h : ReadsOperands n m os answer) :
    (∃ i rest, answer = .ok (i, rest)) ↔ n ≤ os.length ∧ (os.take m).all WellFormed.regByteOk = true := by
  unfold ReadsOperands at h
  split at h
  next short => simp [h, Nat.not_le.mpr short]
  next enough =>
    split at h
    next legal =>
      obtain ⟨i, rfl⟩ := h
      exact ⟨fun _ => ⟨Nat.not_lt.mp enough, legal⟩, fun _ => ⟨i, _, rfl⟩⟩
    next illegal =>
      obtain ⟨o, rfl⟩ := h
      simp [illegal]

/-- Settles O7: an unknown opcode byte is refused by both checks; after a known one both ask for the same operand bytes. -/
theorem decodeAcceptsExactlyWellFormedBytes : Obligations.DecodeAcceptsExactlyWellFormedBytes := by
  intro bs
  cases bs with
  | nil => simp [decode, WellFormed.bytesOk]
  | cons op os =>
    cases count : WellFormed.operandCount op with
    | none => simp [decode_unknown count, WellFormed.bytesOk, count]
    | some n =>
      rw [(readsOperands_decode count os).isOk_iff]
      simp [WellFormed.bytesOk, count]

/-! ### The opcode table -/

theorem encode_length (i : Instr) : (encode i).length = i.opcode.format.operands + 1 := by cases i <;> rfl

theorem encode_length_le (i : Instr) : (encode i).length ≤ 3 := by
  rw [encode_length]
  cases i.opcode <;> decide

/-- Rule R43, opcode by opcode. -/
theorem opcode_bits (o : Opcode) : (o.byte.extractLsb' 6 2).toNat = o.format.operands ∧
    (o.byte.getLsbD 5 = true ↔ o = .add ∨ o = .mul ∨ o = .cmp) ∧
    (o.byte.getLsbD 4 = true ↔ o = .call ∨ o = .ret ∨ o = .jmp ∨ o = .jeq ∨ o = .jne) := by
  cases o <;> decide

/-- Settles O9: the three observations hold of each of the 14 opcode bytes, and an instruction's length is its opcode's. -/
theorem opcodeBitsShowTheirClasses : Obligations.OpcodeBitsShowTheirClasses := by
  intro i
  obtain ⟨count, alu, control⟩ := opcode_bits i.opcode
  exact ⟨by rw [count, encode_length], alu, control⟩

/-- Settles O10: each word is what the encoder writes for its instruction. -/
theorem knownWordsDecode : Obligations.KnownWordsDecode :=
  ⟨decode_encode (.ldi 0#3 8#8) [], decode_encode (.st 5#3 6#3) [], decode_encode (.add 1#3 2#3) [], decode_encode (.push 3#3) [],
    decode_encode (.jne 4#3) [], decode_encode (.prn 7#3) [], decode_encode .hlt []⟩

end Sys2Proof
end

section
/-! SUPPORT. The ALU as a function of two values (rule R59): which value or flag an operation computes, apart from where it goes. -/

namespace Sys2Proof.Machine

open Sys2Proof.Claims

/-- The value an operation other than CMP puts in `x[a]` when the operands are `x` and `y`, or its fault (rule R60). CMP puts no
value there; it shares the line of the unsupported selector, and the lemmas about `value` leave it out. -/
def AluOp.value (op : AluOp) (x y : Byte) : Except Fault Byte :=
  match op with
  | .add => .ok (narrow (x.toNat + y.toNat))
  | .mul => .ok (narrow (x.toNat * y.toNat))
  | .mod => if y = 0x00#8 then .error .divisionByZero else .ok (narrow (x.toNat % y.toNat))
  | .and => .ok (x &&& y)
  | .or => .ok (x ||| y)
  | .xor => .ok (x ^^^ y)
  | .not => .ok (x ^^^ 0xFF#8)
  | .shl => .ok (narrow (x.toNat <<< 1))
  | .shr => .ok (narrow (x.toNat >>> 1))
  | .cmp | .other => .error .unsupportedOperation

theorem alu_cmp (a b : Reg) (s : State) : alu .cmp a b s = .ok (s.setE (equalFlag (s.reg a) (s.reg b))) := rfl

/-- An operation other than CMP writes its value to `x[a]`, and nothing when it faults (rule R59). -/
theorem alu_of_ne_cmp {op : AluOp} (h : op ≠ .cmp) (a b : Reg) (s : State) :
    alu op a b s = (op.value (s.reg a) (s.reg b)).map (s.setReg a) := by
  cases op with
  | cmp => exact absurd rfl h
  | mod =>
    by_cases zero : s.reg b = 0x00#8
    · rw [alu_mod_of_eq_zero zero, AluOp.value, if_pos zero]; rfl
    · rw [alu_mod_of_ne_zero zero, AluOp.value, if_neg zero]; rfl
  | add | mul | and | or | xor | not | shl | shr | other => rfl

/-- An operation other than CMP that completes has written one value to `x[a]`. -/
theorem alu_eq_ok_of_ne_cmp {op : AluOp} (h : op ≠ .cmp) {a b : Reg} {s t : State} (ok : alu op a b s = .ok t) :
    ∃ v, op.value (s.reg a) (s.reg b) = .ok v ∧ t = s.setReg a v := by
  rw [alu_of_ne_cmp h] at ok
  cases value : op.value (s.reg a) (s.reg b) with
  | error f => rw [value] at ok; cases ok
  | ok v => rw [value] at ok; cases ok; exact ⟨v, rfl, rfl⟩

/-- Settles O22: CMP sets the flag, every other operation sets `x[a]`. -/
theorem aluWritesOneRegisterOrTheFlag : Obligations.AluWritesOneRegisterOrTheFlag := by
  intro op a b s t ok
  have frame := alu_frame ok
  by_cases compares : op = .cmp
  · subst compares
    cases ok
    exact ⟨regsKept_setE s _, fun other => absurd rfl other, frame⟩
  · obtain ⟨v, -, rfl⟩ := alu_eq_ok_of_ne_cmp compares ok
    rw [if_neg compares]
    exact ⟨regsKept_setReg s a v, fun _ => rfl, frame⟩

/-- Settles O23: what the operation computes is a function of the two values, and only where it is written depends on the state. -/
theorem aluDependsOnTheTwoValuesAlone : Obligations.AluDependsOnTheTwoValuesAlone := by
  intro op a b s u sameA sameB
  by_cases compares : op = .cmp
  · subst compares
    simp only [alu_cmp]
    exact ⟨_, rfl, sameA.symm, fun _ => by rw [State.setE_flE, State.setE_flE, sameA, sameB]⟩
  · rw [alu_of_ne_cmp compares, alu_of_ne_cmp compares, ← sameA, ← sameB]
    cases op.value (s.reg a) (s.reg b) with
    | error f => rfl
    | ok v => exact ⟨_, rfl, by rw [State.reg_setReg_same, State.reg_setReg_same], fun isCmp => absurd isCmp compares⟩

end Sys2Proof.Machine
end

section
/-! SUPPORT. exec, said once: an instruction either traps because an address it forms is above 255, or completes; and when it completes, what it
changes besides pc, and that pc goes to its target (rules R54, R57, R86, R96). The frames of every instruction follow from this. -/

namespace Sys2Proof.Machine

open Sys2Proof.Claims

@[simp] theorem State.loadByte_storeByte_same (s : State) (a v : Byte) : (s.storeByte a v).loadByte a = v := by
  rw [State.loadByte_storeByte, if_pos rfl]

@[simp] theorem State.loadByte_storeByte_of_ne (s : State) {a b : Byte} (h : b ≠ a) (v : Byte) :
    (s.storeByte a v).loadByte b = s.loadByte b := by
  rw [State.loadByte_storeByte, if_neg h]

/-! ### The two ways to end -/

/-- The sequential successor the instruction needs, or CALL's return address, is above 255 (rules R54, R86; the spec's decision D2). -/
def trapsAtTop (i : Instr) (s : State) : Prop :=
  match i with
  | .ldi _ _ | .st _ _ | .add _ _ | .mul _ _ | .cmp _ _ => 255 < s.pc.toNat + 3
  | .push _ | .pop _ | .prn _ | .call _ => 255 < s.pc.toNat + 2
  | .jeq _ => s.flE = false ∧ 255 < s.pc.toNat + 2
  | .jne _ => s.flE = true ∧ 255 < s.pc.toNat + 2
  | .hlt | .ret | .jmp _ => False

/-- Everything that an instruction which completes changes besides pc. -/
def effect (i : Instr) (s : State) : State :=
  match i with
  | .hlt => s.halt
  | .ret => s.incSp
  | .push r => s.decSp.storeByte s.decSp.sp (s.decSp.reg r)
  | .pop r => (s.setReg r (s.loadByte s.sp)).incSp
  | .prn r => s.emit (s.reg r)
  | .call _ => s.decSp.storeByte s.decSp.sp (BitVec.ofNat 8 (s.pc.toNat + 2))
  | .jmp _ | .jeq _ | .jne _ => s
  | .ldi r v => s.setReg r v
  | .st d src => s.storeByte (s.reg d) (s.reg src)
  | .add a b => s.setReg a (narrow ((s.reg a).toNat + (s.reg b).toNat))
  | .mul a b => s.setReg a (narrow ((s.reg a).toNat * (s.reg b).toNat))
  | .cmp a b => s.setE (equalFlag (s.reg a) (s.reg b))

/-- The state that an instruction which completes leaves: its effect, and pc at its target (rule R57). -/
def completed (i : Instr) (s : State) : State := (effect i s).setPc (BitVec.ofNat 8 (pcTarget i s))

/-- Where the target is the value of a byte, pc goes to that byte. -/
theorem completed_of_target {i : Instr} {s : State} {t : Byte} (h : pcTarget i s = t.toNat) : completed i s = (effect i s).setPc t := by
  rw [completed, h, BitVec.ofNat_toNat, BitVec.setWidth_eq]

/-- CALL reads the register after the push, which for R7 is the decremented stack pointer (rule R86, the spec's decision D9). -/
theorem completed_call (r : Reg) (s : State) : completed (.call r) s = (effect (.call r) s).setPc (s.decSp.reg r) := by
  refine completed_of_target ?_
  rw [State.reg_decSp, apply_ite BitVec.toNat]
  rfl

/-- A sequential instruction traps where its successor would be above 255 (rule R54). -/
theorem exec_sequential_top {i : Instr} {s : State} (n : Nat) (shape : exec i s = sequential n (fun u => .ok (effect i u)) s)
    (top : 255 < s.pc.toNat + n + 1) : exec i s = .next (s.enterFault .invalidAddress) :=
  shape.trans (sequential_top top)

/-- A sequential instruction completes where its successor, which is its target, is an address (rules R54, R55). -/
theorem exec_sequential_ok {i : Instr} {s : State} (n : Nat) (shape : exec i s = sequential n (fun u => .ok (effect i u)) s)
    (target : pcTarget i s = s.pc.toNat + n + 1) (low : ¬ 255 < s.pc.toNat + n + 1) : exec i s = .next (completed i s) := by
  rw [shape, completed, target]
  exact sequential_ok (Nat.not_le.mp low) rfl

theorem exec_jeq_untaken {r : Reg} {s : State} (clear : s.flE = false) : exec (.jeq r) s = sequential 1 .ok s :=
  if_neg (by simp [clear])

theorem exec_jne_untaken {r : Reg} {s : State} (set : s.flE = true) : exec (.jne r) s = sequential 1 .ok s :=
  if_neg (by simp [set])

theorem exec_of_trapsAtTop {i : Instr} {s : State} (h : trapsAtTop i s) : exec i s = .next (s.enterFault .invalidAddress) := by
  cases i with
  | hlt | ret | jmp r => cases h
  | push r | pop r | prn r => exact exec_sequential_top 1 rfl h
  | ldi r v | st d src | add a b | mul a b | cmp a b => exact exec_sequential_top 2 rfl h
  | call r =>
    obtain ⟨low, -⟩ | ⟨-, top⟩ := returnAddress_cases s
    · exact absurd low (Nat.not_lt.mpr h)
    · simp only [exec, execCall, top, raise]
  | jeq r =>
    obtain ⟨clear, top⟩ := h
    exact exec_sequential_top 1 (exec_jeq_untaken clear) top
  | jne r =>
    obtain ⟨set, top⟩ := h
    exact exec_sequential_top 1 (exec_jne_untaken set) top

theorem exec_of_not_trapsAtTop {i : Instr} {s : State} (h : ¬ trapsAtTop i s) : exec i s = .next (completed i s) := by
  cases i with
  | hlt | ret | jmp r =>
    rw [completed_of_target rfl]
    rfl
  | push r | pop r | prn r => exact exec_sequential_ok 1 rfl rfl h
  | ldi r v | st d src | add a b | mul a b | cmp a b => exact exec_sequential_ok 2 rfl rfl h
  | call r =>
    obtain ⟨-, low⟩ | ⟨top, -⟩ := returnAddress_cases s
    · rw [completed_call]
      simp only [exec, execCall, low]
      rfl
    · exact absurd top h
  | jeq r =>
    cases flag : s.flE with
    | true =>
      have target : pcTarget (.jeq r) s = (s.reg r).toNat := if_pos flag
      rw [completed_of_target target]
      exact if_pos flag
    | false =>
      have target : pcTarget (.jeq r) s = s.pc.toNat + 2 := if_neg (by simp [flag])
      exact exec_sequential_ok 1 (exec_jeq_untaken flag) target fun top => h ⟨flag, top⟩
  | jne r =>
    cases flag : s.flE with
    | false =>
      have target : pcTarget (.jne r) s = (s.reg r).toNat := if_neg (by simp [flag])
      rw [completed_of_target target]
      exact if_pos flag
    | true =>
      have target : pcTarget (.jne r) s = s.pc.toNat + 2 := if_pos flag
      exact exec_sequential_ok 1 (exec_jne_untaken flag) target fun top => h ⟨flag, top⟩

/-- The two ways an instruction ends, from its answer. -/
theorem exec_eq_next {i : Instr} {s t : State} (h : exec i s = .next t) :
    (trapsAtTop i s ∧ t = s.enterFault .invalidAddress) ∨ (¬ trapsAtTop i s ∧ t = completed i s) := by
  by_cases traps : trapsAtTop i s
  · rw [exec_of_trapsAtTop traps] at h
    cases h
    exact .inl ⟨traps, rfl⟩
  · rw [exec_of_not_trapsAtTop traps] at h
    cases h
    exact .inr ⟨traps, rfl⟩

/-- Settles O40: an address above 255 is found before anything is written. -/
theorem addressAboveTheTopTraps : Obligations.AddressAboveTheTopTraps :=
  fun _ _ above => exec_of_trapsAtTop above

/-! ### What a completed instruction changes -/

theorem pcTarget_lt_of_not_trapsAtTop {i : Instr} {s : State} (h : ¬ trapsAtTop i s) : pcTarget i s < 256 := by
  cases i with
  | hlt => exact s.pc.isLt
  | ret => exact (s.loadByte s.sp).isLt
  | jmp r => exact (s.reg r).isLt
  | push r | pop r | prn r => exact Nat.not_le.mp h
  | ldi r v | st d src | add a b | mul a b | cmp a b => exact Nat.not_le.mp h
  | call r =>
    simp only [pcTarget]
    split
    · exact (s.sp - 1#8).isLt
    · exact (s.reg r).isLt
  | jeq r =>
    cases flag : s.flE with
    | true => simpa only [pcTarget, flag, if_true] using (s.reg r).isLt
    | false => simpa only [pcTarget, flag, Bool.false_eq_true, if_false] using Nat.not_le.mp fun top => h ⟨flag, top⟩
  | jne r =>
    cases flag : s.flE with
    | true => simpa only [pcTarget, flag, if_true] using Nat.not_le.mp fun top => h ⟨flag, top⟩
    | false => simpa only [pcTarget, flag, Bool.false_eq_true, if_false] using (s.reg r).isLt

/-- pc goes to the target, which is an address (rule R57). -/
theorem completed_pc {i : Instr} {s : State} (h : ¬ trapsAtTop i s) : (completed i s).pc.toNat = pcTarget i s :=
  narrow_toNat_of_lt (pcTarget_lt_of_not_trapsAtTop h)

/-- The registers an instruction may write (rule R10). -/
def writtenRegs (i : Instr) : List Reg :=
  match i with
  | .ldi r _ => [r]
  | .add a _ => [a]
  | .mul a _ => [a]
  | .push _ | .call _ | .ret => [7#3]
  | .pop r => [r, 7#3]
  | .prn _ | .cmp _ _ | .jmp _ | .jeq _ | .jne _ | .st _ _ | .hlt => []

theorem completed_regsKept (i : Instr) (s : State) : RegsKept (writtenRegs i) s (completed i s) := by
  cases i with
  | prn r | cmp a b | jmp r | jeq r | jne r | st d src | hlt => exact fun _ _ => rfl
  | ldi r v => exact regsKept_setReg s r v
  | add a b | mul a b => exact regsKept_setReg s a _
  | push r | call r => exact regsKept_setReg s 7#3 _
  | ret => exact regsKept_incSp s
  | pop r =>
    intro q other
    obtain ⟨notTarget, notSp⟩ : q ≠ r ∧ q ≠ 7#3 := by simpa [writtenRegs] using other
    calc (completed (.pop r) s).reg q = (s.setReg r (s.loadByte s.sp)).incSp.reg q := rfl
      _ = (s.setReg r (s.loadByte s.sp)).reg q := by rw [State.reg_incSp, if_neg notSp]
      _ = s.reg q := s.reg_setReg_of_ne notTarget _

/-- Memory changes at the store address alone (rules R10, R29). -/
theorem completed_memKept (i : Instr) (s : State) : MemKept (storeAddress i s).toList s (completed i s) := by
  cases i with
  | st d src | push r | call r => exact fun a other => State.loadByte_storeByte_of_ne _ (List.ne_of_not_mem_cons other) _
  | hlt | ret | pop r | prn r | jmp r | jeq r | jne r | ldi r v | add a b | mul a b | cmp a b => exact fun _ _ => rfl

theorem completed_flE {i : Instr} (h : ∀ a b, i ≠ .cmp a b) (s : State) : (completed i s).flE = s.flE := by
  cases i with
  | cmp a b => exact absurd rfl (h a b)
  | hlt | ret | push r | pop r | prn r | call r | jmp r | jeq r | jne r | ldi r v | st d src | add a b | mul a b => rfl

theorem completed_controlKept {i : Instr} (h : i ≠ .hlt) (s : State) : ControlKept s (completed i s) := by
  cases i with
  | hlt => exact absurd rfl h
  | ret | push r | pop r | prn r | call r | jmp r | jeq r | jne r | ldi r v | st d src | add a b | mul a b | cmp a b =>
    exact ⟨rfl, rfl, rfl, rfl, rfl⟩

/-! ### The frames of every instruction -/

/-- Settles O39: an instruction that traps ends Faulted, and one that completes has put its target in pc. -/
theorem pcGoesToTheTarget : Obligations.PcGoesToTheTarget := by
  intro i s t _ answers notFaulted
  obtain ⟨-, rfl⟩ | ⟨completes, rfl⟩ := exec_eq_next answers
  · exact absurd (State.enterFault_run s _) notFaulted
  · exact completed_pc completes

/-- Settles O44: fault entry keeps the flag, and of the effects only CMP's writes it. -/
theorem onlyCmpWritesTheFlag : Obligations.OnlyCmpWritesTheFlag := by
  intro i s t answers notCmp
  obtain ⟨-, rfl⟩ | ⟨-, rfl⟩ := exec_eq_next answers
  · rfl
  · rw [State.fl, State.fl, completed_flE notCmp]

/-- Settles O45: fault entry keeps memory, and of the effects only those of ST, PUSH and CALL store, one byte each. -/
theorem memoryChangesOnlyAtTheStoreAddress : Obligations.MemoryChangesOnlyAtTheStoreAddress := by
  intro i s t answers a other
  obtain ⟨-, rfl⟩ | ⟨-, rfl⟩ := exec_eq_next answers
  · rfl
  · exact completed_memKept i s a (by simpa using other)

/-- Settles O46: fault entry keeps the registers, and each effect writes those of the table. -/
theorem registersChangeOnlyAsTabled : Obligations.RegistersChangeOnlyAsTabled := by
  intro i s t answers
  obtain ⟨-, rfl⟩ | ⟨-, rfl⟩ := exec_eq_next answers
  · exact fun _ _ => rfl
  · exact completed_regsKept i s

end Sys2Proof.Machine
end

section
/-! SUPPORT. What each instruction does when it completes (rules R74 to R93), read off its effect; and the two round trips of the source. -/

namespace Sys2Proof.Machine

open Sys2Proof.Claims

/-! ### The completion of a form, from the end of memory it needs -/

/-- What an instruction leaves where it does not trap: pc at its target, and everything else as its effect has it. -/
theorem exec_completes (i : Instr) {s : State} (h : ¬ trapsAtTop i s) :
    exec i s = .next (completed i s) ∧ (completed i s).pc.toNat = pcTarget i s ∧ RegsKept (writtenRegs i) s (completed i s) ∧
      MemKept (storeAddress i s).toList s (completed i s) ∧ (i ≠ .hlt → ControlKept s (completed i s)) :=
  ⟨exec_of_not_trapsAtTop h, completed_pc h, completed_regsKept i s, completed_memKept i s, (completed_controlKept · s)⟩

/-- Settles O18: the effect of LDI is one register write. -/
theorem ldiLoadsTheImmediate : Obligations.LdiLoadsTheImmediate := by
  intro r v s upTo
  obtain ⟨completes, pc, regs, mem, control⟩ := exec_completes (.ldi r v) (Nat.not_lt.mpr upTo)
  exact ⟨_, completes, s.reg_setReg_same r v, pc, regs, rfl, mem, rfl, control nofun⟩

/-- Settles O19: the effect of ST is one store. -/
theorem stStoresTheRegister : Obligations.StStoresTheRegister := by
  intro d src s upTo
  obtain ⟨completes, pc, regs, mem, control⟩ := exec_completes (.st d src) (Nat.not_lt.mpr upTo)
  exact ⟨_, completes, s.loadByte_storeByte_same _ _, mem, pc, regs, rfl, rfl, control nofun⟩

/-- Settles O25: the effect of ADD is one register write, of the sum narrowed to a byte. -/
theorem addWrapsModulo256 : Obligations.AddWrapsModulo256 := by
  intro a b s upTo
  obtain ⟨completes, pc, regs, mem, control⟩ := exec_completes (.add a b) (Nat.not_lt.mpr upTo)
  have sum : ((completed (.add a b) s).reg a).toNat = ((s.reg a).toNat + (s.reg b).toNat) % 256 :=
    (congrArg BitVec.toNat (s.reg_setReg_same a _)).trans (narrow_toNat _)
  exact ⟨_, completes, sum, pc, regs, rfl, mem, rfl, control nofun⟩

/-- Settles O26: the effect of MUL is one register write, of the product narrowed to a byte. -/
theorem mulKeepsTheLowByte : Obligations.MulKeepsTheLowByte := by
  intro a b s upTo
  obtain ⟨completes, pc, regs, mem, control⟩ := exec_completes (.mul a b) (Nat.not_lt.mpr upTo)
  have product : ((completed (.mul a b) s).reg a).toNat = ((s.reg a).toNat * (s.reg b).toNat) % 256 :=
    (congrArg BitVec.toNat (s.reg_setReg_same a _)).trans (narrow_toNat _)
  exact ⟨_, completes, product, pc, regs, rfl, mem, rfl, control nofun⟩

/-- Settles O27: the effect of CMP is a write of the flag. -/
theorem cmpSetsTheFlagExactlyOnEquality : Obligations.CmpSetsTheFlagExactlyOnEquality := by
  intro a b s upTo
  obtain ⟨completes, pc, regs, mem, control⟩ := exec_completes (.cmp a b) (Nat.not_lt.mpr upTo)
  have flag : (completed (.cmp a b) s).fl = if s.reg a = s.reg b then 0x01#8 else 0x00#8 :=
    if_congr (equalFlag_eq_true_iff _ _) rfl rfl
  exact ⟨_, completes, flag, pc, regs, mem, rfl, control nofun⟩

/-- Settles O29: the register is read after the decrement, which changes R7 alone. -/
theorem pushDecrementsThenStores : Obligations.PushDecrementsThenStores := by
  intro r s upTo
  obtain ⟨completes, pc, regs, mem, control⟩ := exec_completes (.push r) (Nat.not_lt.mpr upTo)
  have cell : (completed (.push r) s).loadByte s.decSp.sp = if r = 7#3 then s.sp - 1#8 else s.reg r :=
    (s.decSp.loadByte_storeByte_same _ _).trans (s.reg_decSp r)
  exact ⟨_, completes, s.sp_decSp, cell, mem, pc, regs, rfl, rfl, control nofun⟩

/-- Settles O30: the register is written before the increment, which changes R7 alone. -/
theorem popLoadsThenIncrements : Obligations.PopLoadsThenIncrements := by
  intro r s upTo
  obtain ⟨completes, pc, regs, mem, control⟩ := exec_completes (.pop r) (Nat.not_lt.mpr upTo)
  have sp : (completed (.pop r) s).sp = if r = 7#3 then s.loadByte s.sp + 1#8 else s.sp + 1#8 := by
    calc (completed (.pop r) s).sp = (s.setReg r (s.loadByte s.sp)).sp + 1#8 := State.sp_incSp _
      _ = _ := by rw [State.sp_setReg, apply_ite (· + 1#8)]
  have value (notSp : r ≠ 7#3) : (completed (.pop r) s).reg r = s.loadByte s.sp := by
    calc (completed (.pop r) s).reg r = (s.setReg r (s.loadByte s.sp)).reg r := (State.reg_incSp _ r).trans (if_neg notSp)
      _ = _ := s.reg_setReg_same r _
  exact ⟨_, completes, sp, value, pc, regs, mem, rfl, rfl, control nofun⟩

/-- Settles O32: the return address is an address, so its byte has its value. -/
theorem callPushesTheReturnAddress : Obligations.CallPushesTheReturnAddress := by
  intro r s upTo
  obtain ⟨completes, pc, regs, mem, control⟩ := exec_completes (.call r) (Nat.not_lt.mpr upTo)
  have cell : ((completed (.call r) s).loadByte s.decSp.sp).toNat = s.pc.toNat + 2 :=
    (congrArg BitVec.toNat (s.decSp.loadByte_storeByte_same _ _)).trans (narrow_toNat_of_lt (Nat.lt_succ_of_le upTo))
  have target : (completed (.call r) s).pc = if r = 7#3 then s.sp - 1#8 else s.reg r :=
    BitVec.eq_of_toNat_eq (pc.trans (apply_ite BitVec.toNat _ _ _).symm)
  exact ⟨_, completes, s.sp_decSp, cell, mem, target, regs, rfl, rfl, control nofun⟩

/-- Settles O34: RET forms no address that could be above 255. -/
theorem retAlwaysCompletes : Obligations.RetAlwaysCompletes := by
  intro s
  obtain ⟨completes, pc, regs, mem, control⟩ := exec_completes .ret (s := s) id
  exact ⟨_, completes, BitVec.eq_of_toNat_eq pc, s.sp_incSp, regs, mem, rfl, rfl, control nofun⟩

/-- Settles O35: JMP forms no address that could be above 255. -/
theorem jmpGoesToTheRegister : Obligations.JmpGoesToTheRegister := by
  intro r s
  obtain ⟨completes, pc, regs, mem, control⟩ := exec_completes (.jmp r) (s := s) id
  exact ⟨_, completes, BitVec.eq_of_toNat_eq pc, regs, mem, rfl, rfl, control nofun⟩

/-- Settles O36: the flag decides the target, and only the untaken jump needs a successor. -/
theorem jeqJumpsWhenTheFlagIsSet : Obligations.JeqJumpsWhenTheFlagIsSet := by
  intro r s
  refine ⟨fun set => ?taken, fun clear upTo => ?untaken⟩
  case taken =>
    obtain ⟨completes, pc, regs, mem, control⟩ := exec_completes (.jeq r) (s := s) fun traps => by simp [traps.1] at set
    exact ⟨_, completes, BitVec.eq_of_toNat_eq (pc.trans (if_pos set)), regs, mem, rfl, rfl, control nofun⟩
  case untaken =>
    obtain ⟨completes, pc, regs, mem, control⟩ := exec_completes (.jeq r) (s := s) fun traps => Nat.not_lt.mpr upTo traps.2
    exact ⟨_, completes, pc.trans (if_neg (by simp [clear])), regs, mem, rfl, rfl, control nofun⟩

/-- Settles O37: the flag decides the target, and only the untaken jump needs a successor. -/
theorem jneJumpsWhenTheFlagIsClear : Obligations.JneJumpsWhenTheFlagIsClear := by
  intro r s
  refine ⟨fun clear => ?taken, fun set upTo => ?untaken⟩
  case taken =>
    obtain ⟨completes, pc, regs, mem, control⟩ := exec_completes (.jne r) (s := s) fun traps => by simp [traps.1] at clear
    exact ⟨_, completes, BitVec.eq_of_toNat_eq (pc.trans (if_neg (by simp [clear]))), regs, mem, rfl, rfl, control nofun⟩
  case untaken =>
    obtain ⟨completes, pc, regs, mem, control⟩ := exec_completes (.jne r) (s := s) fun traps => Nat.not_lt.mpr upTo traps.2
    exact ⟨_, completes, pc.trans (if_pos set), regs, mem, rfl, rfl, control nofun⟩

/-- Settles O41: the effect of PRN is one byte at the end of OUT. -/
theorem prnAppendsTheByte : Obligations.PrnAppendsTheByte := by
  intro r s upTo
  obtain ⟨completes, pc, regs, mem, control⟩ := exec_completes (.prn r) (Nat.not_lt.mpr upTo)
  exact ⟨_, completes, rfl, pc, regs, mem, rfl, control nofun⟩

/-- Settles O42: the effect of HLT is the halt, and its target is pc. -/
theorem hltHaltsAndChangesNothingElse : Obligations.HltHaltsAndChangesNothingElse := by
  intro s
  obtain ⟨completes, pc, regs, mem, -⟩ := exec_completes .hlt (s := s) id
  exact ⟨_, completes, rfl, BitVec.eq_of_toNat_eq pc, regs, mem, rfl, rfl, rfl, rfl, rfl, rfl⟩

/-! ### Sequences -/

/-- Settles O28: each LDI leaves the other register alone, so the third instruction finds both immediates. -/
theorem ldiLdiThenAddOrMul : Obligations.LdiLdiThenAddOrMul := by
  intro a b x y s different upTo
  obtain ⟨t, loadsA, valueA, pcA, -⟩ := ldiLoadsTheImmediate a x s (by omega)
  obtain ⟨u, loadsB, valueB, pcB, keptB, -⟩ := ldiLoadsTheImmediate b y t (by omega)
  have keptA : u.reg a = x := (keptB a (by simpa using different)).trans valueA
  obtain ⟨v, adds, sum, -⟩ := addWrapsModulo256 a b u (by omega)
  obtain ⟨w, multiplies, product, -⟩ := mulKeepsTheLowByte a b u (by omega)
  rw [keptA, valueB] at sum product
  exact ⟨t, u, loadsA, loadsB, ⟨v, adds, sum⟩, ⟨w, multiplies, product⟩⟩

/-- Settles O38: RET reads the cell that CALL wrote, and its increment of R7 undoes CALL's decrement. -/
theorem callThenRetRoundTrip : Obligations.CallThenRetRoundTrip := by
  intro r s upTo
  obtain ⟨t, calls, down, cell, -⟩ := callPushesTheReturnAddress r s upTo
  refine ⟨t, calls, fun u sameSp sameCell => ?_⟩
  obtain ⟨v, returns, pc, up, -⟩ := retAlwaysCompletes u
  refine ⟨v, returns, ?returnAddress, ?restored⟩
  case returnAddress =>
    have top : t.sp = s.decSp.sp := down.trans s.sp_decSp.symm
    rw [pc, sameSp, sameCell, top, cell]
  case restored => rw [up, sameSp, down, BitVec.sub_add_cancel]

end Sys2Proof.Machine
end

section
/-! SUPPORT. Fetching against the bytes of memory (rules R50, R51, R53, R102): the four things it can find at pc, each said of raw bytes, and the
step that follows from each. -/

namespace Sys2Proof.Machine

open Sys2Proof.Claims

/-! ### The window of bytes at pc -/

theorem bytesFrom_length (s : State) (a k : Nat) : (bytesFrom s a k).length = min k (256 - a) := by
  rw [bytesFrom_eq, List.length_map, List.length_range']

/-- Bytes that lie below 256 are read as memory has them. -/
theorem take_bytesFrom {s : State} {a k m : Nat} (wanted : m ≤ k) (below : a + m ≤ 256) :
    (bytesFrom s a k).take m = (List.range' a m).map s.mem.read := by
  obtain ⟨more, window⟩ : ∃ more, min k (256 - a) = m + more := Nat.exists_eq_add_of_le (by omega)
  rw [bytesFrom_eq, window, ← List.range'_append_1, List.map_append]
  exact List.take_left' (by simp)

theorem fetch_of_decode_ok {s : State} {i : Instr} {rest : List Byte} (h : decode (bytesFrom s s.pc.toNat 3) = .ok (i, rest)) :
    fetch s = .ok i := by
  simp only [fetch, h]

theorem fetch_of_decode_error {s : State} {e : DecodeError} (h : decode (bytesFrom s s.pc.toNat 3) = .error e) :
    fetch s = .error (faultOf e) := by
  simp only [fetch, h]

/-- A fetched instruction's encoding stands at pc. -/
theorem bytesFrom_of_fetch {s : State} {i : Instr} (h : fetch s = .ok i) : ∃ rest, bytesFrom s s.pc.toNat 3 = encode i ++ rest := by
  cases decoded : decode (bytesFrom s s.pc.toNat 3) with
  | error e => cases (fetch_of_decode_error decoded).symm.trans h
  | ok answer =>
    obtain ⟨j, rest⟩ := answer
    cases (fetch_of_decode_ok decoded).symm.trans h
    exact ⟨rest, decodedBytesAreTheEncoding _ _ _ decoded⟩

/-- The byte at pc is the opcode byte of the fetched instruction (rule R50). -/
theorem opcode_of_fetch {s : State} {i : Instr} (h : fetch s = .ok i) : s.loadByte s.pc = i.opcode.byte := by
  obtain ⟨rest, window⟩ := bytesFrom_of_fetch h
  rw [bytesFrom_byte_succ] at window
  exact (List.cons.inj window).1

/-! ### What fetch finds -/

theorem operandCount_le {op : Byte} {n : Nat} (h : WellFormed.operandCount op = some n) : n ≤ 2 := by
  obtain ⟨o, -, rfl⟩ := exists_byte_of_operandCount h
  cases o <;> decide

theorem regOperandCount_le {op : Byte} {n : Nat} (h : WellFormed.operandCount op = some n) : WellFormed.regOperandCount op ≤ n := by
  obtain ⟨o, rfl, rfl⟩ := exists_byte_of_operandCount h
  cases o <;> decide

theorem operandCount_of_not_mem {op : Byte} (notN : op ∉ WellFormed.opcodesN) (notR : op ∉ WellFormed.opcodesR)
    (notTwo : ¬ (op ∈ WellFormed.opcodesRI ∨ op ∈ WellFormed.opcodesRR)) : WellFormed.operandCount op = none := by
  rw [WellFormed.operandCount, if_neg notN, if_neg notR, if_neg notTwo]

theorem fetch_unknown {s : State} (h : WellFormed.operandCount (s.loadByte s.pc) = none) : fetch s = .error .illegalInstruction := by
  refine fetch_of_decode_error (e := .unknownOpcode (s.loadByte s.pc)) ?_
  rw [bytesFrom_byte_succ, decode_unknown h]

section KnownOpcode

variable {s : State} {n : Nat} (count : WellFormed.operandCount (s.loadByte s.pc) = some n)
include count

theorem readsOperands_at_pc : ReadsOperands n (WellFormed.regOperandCount (s.loadByte s.pc)) (bytesFrom s (s.pc.toNat + 1) 2)
    (decode (bytesFrom s s.pc.toNat 3)) := by
  rw [bytesFrom_byte_succ]
  exact readsOperands_decode count _

/-- Operand bytes are missing exactly where the last one's address would be above 255 (rule R53, the spec's decision D2). -/
theorem operands_missing_iff : (bytesFrom s (s.pc.toNat + 1) 2).length < n ↔ 255 < s.pc.toNat + n := by
  have atMostTwo := operandCount_le count
  rw [bytesFrom_length]
  omega

theorem fetch_missing (above : 255 < s.pc.toNat + n) : fetch s = .error .invalidAddress := by
  have answer := readsOperands_at_pc count
  rw [ReadsOperands, if_pos ((operands_missing_iff count).mpr above)] at answer
  exact fetch_of_decode_error answer

/-- The register bytes that the decoder judges are those at the addresses after pc (rules R39, R41). -/
theorem registers_illegal_iff (upTo : ¬ 255 < s.pc.toNat + n) :
    ¬ ((bytesFrom s (s.pc.toNat + 1) 2).take (WellFormed.regOperandCount (s.loadByte s.pc))).all WellFormed.regByteOk = true ↔
      ∃ k, k < WellFormed.regOperandCount (s.loadByte s.pc) ∧ 7 < (byteAt s (s.pc.toNat + 1 + k)).toNat := by
  have atMostTwo := operandCount_le count
  have registers := regOperandCount_le count
  rw [take_bytesFrom (by omega) (by omega), List.range'_eq_map_range]
  simp [WellFormed.regByteOk, byteAt]

theorem fetch_badRegister (upTo : ¬ 255 < s.pc.toNat + n)
    (bad : ∃ k, k < WellFormed.regOperandCount (s.loadByte s.pc) ∧ 7 < (byteAt s (s.pc.toNat + 1 + k)).toNat) :
    fetch s = .error .illegalInstruction := by
  have answer := readsOperands_at_pc count
  rw [ReadsOperands, if_neg (mt (operands_missing_iff count).mp upTo), if_neg ((registers_illegal_iff count upTo).mpr bad)] at answer
  obtain ⟨o, decoded⟩ := answer
  exact fetch_of_decode_error decoded

theorem fetch_wellFormed (upTo : ¬ 255 < s.pc.toNat + n)
    (legal : ¬ ∃ k, k < WellFormed.regOperandCount (s.loadByte s.pc) ∧ 7 < (byteAt s (s.pc.toNat + 1 + k)).toNat) :
    ∃ i, fetch s = .ok i ∧ encode i = (List.range' s.pc.toNat (n + 1)).map s.mem.read := by
  have answer := readsOperands_at_pc count
  rw [ReadsOperands, if_neg (mt (operands_missing_iff count).mp upTo),
    if_pos (not_not.mp (mt (registers_illegal_iff count upTo).mp legal))] at answer
  obtain ⟨i, decoded⟩ := answer
  refine ⟨i, fetch_of_decode_ok decoded, ?_⟩
  have atMostTwo := operandCount_le count
  have window := decodedBytesAreTheEncoding _ _ _ decoded
  have whole : (bytesFrom s s.pc.toNat 3).take (n + 1) ++ (bytesFrom s (s.pc.toNat + 1) 2).drop n = bytesFrom s s.pc.toNat 3 := by
    rw [bytesFrom_byte_succ, List.take_succ_cons, List.cons_append, List.take_append_drop]
  rw [← take_bytesFrom (k := 3) (by omega) (by omega)]
  exact List.append_cancel_right (window.symm.trans whole.symm)

end KnownOpcode

/-! ### The step that follows -/

/-- Settles O11: the window at pc that decodes is the one fetch decodes. -/
theorem stepRunsTheDecodedInstruction : Obligations.StepRunsTheDecodedInstruction :=
  fun _ _ _ running decoded => step_of_fetch running (fetch_of_decode_ok decoded)

/-- Settles O12: the window at pc begins with the encoding, which decodes to the instruction whatever follows. -/
theorem stepRunsTheEncodedInstruction : Obligations.StepRunsTheEncodedInstruction := by
  intro s i running fits bytes
  have head : (bytesFrom s s.pc.toNat 3).take (encode i).length = encode i := by
    rw [take_bytesFrom (encode_length_le i) fits]
    exact List.ext_getElem (by simp) fun k _ inside => by simpa [byteAt] using bytes k inside
  have window : bytesFrom s s.pc.toNat 3 = encode i ++ (bytesFrom s s.pc.toNat 3).drop (encode i).length :=
    (List.take_append_drop ..).symm.trans (congrArg (· ++ _) head)
  have fetched : fetch s = .ok i := fetch_of_decode_ok (window ▸ decode_encode i _)
  rw [step_of_fetch running fetched, fetchOpcode, opcode_of_fetch fetched]

/-- Settles O13: each of the four cases of fetch, and then the step that runs the instruction or enters the fault. -/
theorem fetchChecksRaiseTheirFaultsInOrder : Obligations.FetchChecksRaiseTheirFaultsInOrder := by
  intro s running
  cases count : WellFormed.operandCount (s.loadByte s.pc) with
  | none => exact step_of_fetch_error running (fetch_unknown count)
  | some n =>
    simp only
    split_ifs with above bad
    · exact step_of_fetch_error running (fetch_missing count above)
    · exact step_of_fetch_error running (fetch_badRegister count above bad)
    · obtain ⟨i, fetched, bytes⟩ := fetch_wellFormed count above bad
      refine ⟨i, ?_, step_of_fetch running fetched⟩
      rw [bytes, List.range'_eq_map_range, List.map_map]
      rfl

/-- Settles O43: the byte 0x01 is fetched as HLT, and nothing else that a step can do ends Halted. -/
theorem onlyTheHltOpcodeHalts : Obligations.OnlyTheHltOpcodeHalts := by
  intro s t running steps
  constructor
  · intro halted
    obtain ⟨fetched, -⟩ | ⟨f, -, answer⟩ | ⟨u, answer, keeps⟩ := step_running_cases running
    · exact opcode_of_fetch fetched
    · cases answer.symm.trans steps
      cases halted
    · cases answer.symm.trans steps
      cases running.symm.trans (keeps.run.symm.trans halted)
  · intro opcode
    have fetched : fetch s = .ok .hlt := fetch_of_opcode (o := .hlt) opcode rfl
    cases (step_of_fetch running fetched).symm.trans steps
    rfl

/-- Settles O49: the 14 opcode bytes are counted, and any other is the unknown opcode of fetch, whose fault keeps everything else. -/
theorem unknownOpcodeIsIllegal : Obligations.UnknownOpcodeIsIllegal := by
  refine ⟨by decide, fun s running unknown => ?_⟩
  obtain ⟨⟨⟨notN, notR⟩, notRI⟩, notRR⟩ : ((s.loadByte s.pc ∉ WellFormed.opcodesN ∧ s.loadByte s.pc ∉ WellFormed.opcodesR) ∧
      s.loadByte s.pc ∉ WellFormed.opcodesRI) ∧ s.loadByte s.pc ∉ WellFormed.opcodesRR := by
    simpa only [WellFormed.opcodes, List.mem_append, not_or] using unknown
  have count := operandCount_of_not_mem notN notR (not_or.mpr ⟨notRI, notRR⟩)
  exact ⟨_, step_of_fetch_error running (fetch_unknown count), rfl, fun _ _ => rfl, rfl, rfl, fun _ _ => rfl, rfl⟩

/-! ### Faults -/

/-- Settles O14: fault entry is the write of four fields. -/
theorem faultEntryWritesTheRecordAlone : Obligations.FaultEntryWritesTheRecordAlone := by
  intro f s
  exact ⟨rfl, fun e => e ▸ rfl, fun e => e ▸ rfl, fun e => e ▸ rfl, fun e => e ▸ rfl, fun _ _ => rfl, rfl, rfl, fun _ _ => rfl, rfl, rfl⟩

/-- A step that ends Faulted has entered one of the two faults a program can reach, with IR loaded and nothing else done (rules R55, R101). -/
theorem step_eq_enterFault {s t : State} (running : s.run = .running) (steps : step s = .next t) (faulted : t.run = .faulted) :
    ∃ f, (f = .invalidAddress ∨ f = .illegalInstruction) ∧ t = s.loaded.enterFault f := by
  obtain ⟨-, answer⟩ | ⟨f, reachable, answer⟩ | ⟨u, answer, keeps⟩ := step_running_cases running <;> cases answer.symm.trans steps
  case inl => cases faulted
  case inr.inl => exact ⟨f, reachable, rfl⟩
  case inr.inr => cases running.symm.trans (keeps.run.symm.trans faulted)

/-- Settles O47: fault entry and the load of IR are all that such a step does. -/
theorem faultsArePrecise : Obligations.FaultsArePrecise := by
  intro s t running steps faulted
  obtain ⟨f, reachable, rfl⟩ := step_eq_enterFault running steps faulted
  have cause : f.code = 1#3 ∨ f.code = 2#3 := reachable.imp (congrArg Fault.code) (congrArg Fault.code)
  exact ⟨fun _ _ => rfl, rfl, rfl, fun _ _ => rfl, rfl, rfl, rfl, rfl, cause⟩

/-- Fetch raises InvalidAddress only for a missing operand byte (rules R53, R96). -/
theorem fetch_invalidAddress {s : State} (h : fetch s = .error .invalidAddress) : 253 ≤ s.pc.toNat := by
  cases count : WellFormed.operandCount (s.loadByte s.pc) with
  | none => cases (fetch_unknown count).symm.trans h
  | some n =>
    have atMostTwo := operandCount_le count
    by_contra low
    have upTo : ¬ 255 < s.pc.toNat + n := by omega
    by_cases bad : ∃ k, k < WellFormed.regOperandCount (s.loadByte s.pc) ∧ 7 < (byteAt s (s.pc.toNat + 1 + k)).toNat
    · cases (fetch_badRegister count upTo bad).symm.trans h
    · obtain ⟨i, fetched, -⟩ := fetch_wellFormed count upTo bad
      cases fetched.symm.trans h

theorem le_pc_of_trapsAtTop {i : Instr} {s : State} (h : trapsAtTop i s) : 253 ≤ s.pc.toNat := by
  cases i with
  | hlt | ret | jmp r => cases h
  | push r | pop r | prn r | call r =>
    have top : 255 < s.pc.toNat + 2 := h
    omega
  | ldi r v | st d src | add a b | mul a b | cmp a b =>
    have top : 255 < s.pc.toNat + 3 := h
    omega
  | jeq r | jne r =>
    obtain ⟨-, top⟩ := h
    omega

theorem completed_not_faulted (i : Instr) {s : State} (running : s.run = .running) : (completed i s).run ≠ .faulted := by
  by_cases halts : i = .hlt
  · subst halts
    exact nofun
  · obtain ⟨run, -⟩ := completed_controlKept halts s
    rw [run, running]
    exact nofun

/-- Settles O48: InvalidAddress comes from an operand byte that is missing or from an instruction that traps, and both stand near the top. -/
theorem invalidAddressOnlyNearTheTop : Obligations.InvalidAddressOnlyNearTheTop := by
  intro s t running steps faulted cause
  cases fetched : fetch s with
  | error f =>
    cases (step_of_fetch_error running fetched).symm.trans steps
    cases f with
    | invalidAddress => exact fetch_invalidAddress fetched
    | illegalInstruction | unsupportedOperation | divisionByZero => cases cause
  | ok i =>
    obtain ⟨traps, -⟩ | ⟨-, rfl⟩ := exec_eq_next ((step_of_fetch running fetched).symm.trans steps)
    · exact le_pc_of_trapsAtTop traps
    · exact absurd faulted (completed_not_faulted i running)

end Sys2Proof.Machine
end

section
/-! SUPPORT. What every step keeps (rules R18, R20, R93, R101) or adds (rules R21, R34), and runs: an induction on the number of steps over each. -/

namespace Sys2Proof.Machine

open Sys2Proof.Claims

/-! ### The byte just stored -/

/-- The byte that ST, PUSH or CALL stores. -/
def storedByte (i : Instr) (s : State) : Byte :=
  match i with
  | .st _ src => s.reg src
  | .push r => s.decSp.reg r
  | _ => BitVec.ofNat 8 (s.pc.toNat + 2)

theorem completed_loadByte_storeAddress {i : Instr} {s : State} {a : Byte} (h : storeAddress i s = some a) :
    (completed i s).loadByte a = storedByte i s := by
  cases i with
  | st d src | push r | call r =>
    cases h
    exact State.loadByte_storeByte_same _ _ _
  | hlt | ret | pop r | prn r | jmp r | jeq r | jne r | ldi r v | add a b | mul a b | cmp a b => cases h

/-- Settles O50: the instruction completed, since it left the machine Running, and the next step loads IR from the cell it wrote. -/
theorem fetchSeesTheStore : Obligations.FetchSeesTheStore := by
  intro i s t a _ answers running stores atStore u steps
  obtain ⟨-, rfl⟩ | ⟨-, rfl⟩ := exec_eq_next answers
  · cases running
  · calc u.ir = (completed i s).loadByte a := atStore ▸ step_ir running steps
      _ = storedByte i s := completed_loadByte_storeAddress stores

/-! ### The invariant -/

/-- Settles O55: no fault is recorded and no cell is listed. -/
theorem resetHasTheInvariant : Obligations.ResetHasTheInvariant := ⟨reset_mem_wf, rfl, rfl, rfl⟩

theorem runStateOk_of_running {s : State} (running : s.run = .running) : s.RunStateOk ↔ s.NoRecord := by
  simp only [State.RunStateOk, running]

/-- A running machine that has no fault recorded halts at the HLT byte, enters a fault at the byte in IR, or goes on with the empty record. -/
theorem inv_of_running_step {s t : State} (running : s.run = .running) (wf : s.mem.wf = true) (noRecord : s.NoRecord)
    (steps : step s = .next t) : t.Inv := by
  obtain ⟨fetched, answer⟩ | ⟨f, reachable, answer⟩ | ⟨u, answer, keeps⟩ := step_running_cases running <;> cases answer.symm.trans steps
  case inl =>
    have opcode : s.loadByte s.pc = 0x01#8 := opcode_of_fetch fetched
    exact ⟨wf, noRecord, opcode, opcode⟩
  case inr.inl =>
    have cause := reachable.imp (congrArg Fault.code) (congrArg Fault.code)
    exact ⟨wf, cause, rfl, rfl, rfl⟩
  case inr.inr =>
    obtain ⟨cause, pc, op⟩ := noRecord
    have kept : t.NoRecord := ⟨keeps.fcause.trans cause, keeps.fpc.trans pc, keeps.fop.trans op⟩
    exact ⟨keeps.wf wf, (runStateOk_of_running (keeps.run.trans running)).mpr kept⟩

/-- Settles O54: a running machine's step keeps it by `inv_of_running_step`, and a stopped machine does not move. -/
theorem everyStepKeepsTheInvariant : Obligations.EveryStepKeepsTheInvariant := by
  intro s t ⟨wf, ok⟩ steps
  by_cases running : s.run = .running
  · exact inv_of_running_step running wf ((runStateOk_of_running running).mp ok) steps
  · cases (step_of_stopped running).symm.trans steps
    exact ⟨wf, ok⟩

/-! ### The console output -/

/-- What an instruction that completes emits (rules R91, R92). -/
def printed (i : Instr) (s : State) : List Byte :=
  match i with
  | .prn r => [s.reg r]
  | _ => []

theorem completed_out (i : Instr) (s : State) : (completed i s).out = s.out ++ printed i s := by
  cases i with
  | prn r => rfl
  | hlt | ret | push r | pop r | call r | jmp r | jeq r | jne r | ldi r v | st d src | add a b | mul a b | cmp a b =>
    exact (List.append_nil s.out).symm

theorem printed_length_le (i : Instr) (s : State) : (printed i s).length ≤ 1 := by
  cases i with
  | prn r => exact Nat.le_refl 1
  | hlt | ret | push r | pop r | call r | jmp r | jeq r | jne r | ldi r v | st d src | add a b | mul a b | cmp a b => exact Nat.zero_le 1

/-- A step adds at most one byte to OUT, at its end (rule R21). -/
theorem step_out {s t : State} (steps : step s = .next t) : ∃ more, t.out = s.out ++ more ∧ more.length ≤ 1 := by
  have nothing {u : State} (same : u.out = s.out) : ∃ more, u.out = s.out ++ more ∧ more.length ≤ 1 :=
    ⟨[], same.trans (List.append_nil _).symm, Nat.zero_le 1⟩
  by_cases running : s.run = .running
  · cases fetched : fetch s with
    | error f =>
      cases (step_of_fetch_error running fetched).symm.trans steps
      exact nothing rfl
    | ok i =>
      obtain ⟨-, rfl⟩ | ⟨-, rfl⟩ := exec_eq_next ((step_of_fetch running fetched).symm.trans steps)
      · exact nothing rfl
      · exact ⟨_, completed_out i _, printed_length_le i _⟩
  · cases (step_of_stopped running).symm.trans steps
    exact nothing rfl

/-- The state with some bytes printed earlier. -/
def State.printedBefore (s : State) (earlier : List Byte) : State := { s with out := earlier ++ s.out }

section PrintedBefore

variable (s : State) (earlier : List Byte)

theorem fetch_printedBefore : fetch (s.printedBefore earlier) = fetch s := by
  have window : bytesFrom (s.printedBefore earlier) s.pc.toNat 3 = bytesFrom s s.pc.toNat 3 := by
    rw [bytesFrom_eq, bytesFrom_eq]
    rfl
  rw [fetch, fetch, ← window]
  rfl

/-- No instruction reads OUT, and PRN adds its byte at the other end. -/
theorem completed_printedBefore (i : Instr) : completed i (s.printedBefore earlier) = (completed i s).printedBefore earlier := by
  cases i with
  | prn r => exact congrArg (fun out => { completed (.prn r) s with out := out }) (List.append_assoc earlier s.out [s.reg r])
  | hlt | ret | push r | pop r | call r | jmp r | jeq r | jne r | ldi r v | st d src | add a b | mul a b | cmp a b => rfl

variable {s}

theorem exec_printedBefore {i : Instr} {t : State} (answers : exec i s = .next t) :
    exec i (s.printedBefore earlier) = .next (t.printedBefore earlier) := by
  obtain ⟨traps, rfl⟩ | ⟨completes, rfl⟩ := exec_eq_next answers
  · exact exec_of_trapsAtTop (s := s.printedBefore earlier) traps
  · rw [← completed_printedBefore]
    exact exec_of_not_trapsAtTop (s := s.printedBefore earlier) completes

/-- A step is the same step whatever was printed before it (rule R21). -/
theorem step_printedBefore {t : State} (steps : step s = .next t) : step (s.printedBefore earlier) = .next (t.printedBefore earlier) := by
  by_cases running : s.run = .running
  · cases fetched : fetch s with
    | error f =>
      cases (step_of_fetch_error running fetched).symm.trans steps
      exact step_of_fetch_error (s := s.printedBefore earlier) running ((fetch_printedBefore s earlier).trans fetched)
    | ok i =>
      rw [step_of_fetch (s := s.printedBefore earlier) running ((fetch_printedBefore s earlier).trans fetched)]
      exact exec_printedBefore earlier ((step_of_fetch running fetched).symm.trans steps)
  · cases (step_of_stopped running).symm.trans steps
    exact step_of_stopped (s := s.printedBefore earlier) running

end PrintedBefore

/-! ### Runs -/

/-- No step is refused (log entries 1 and 2). -/
theorem step_answers (s : State) : ∃ t, step s = .next t := by
  by_cases running : s.run = .running
  · obtain ⟨-, answer⟩ | ⟨f, -, answer⟩ | ⟨t, answer, -⟩ := step_running_cases running
    · exact ⟨_, answer⟩
    · exact ⟨_, answer⟩
    · exact ⟨t, answer⟩
  · exact ⟨s, step_of_stopped running⟩

/-- A run of `n + 1` steps is a step and a run of `n`. -/
theorem run_succ_eq_next {n : Nat} {s t : State} (h : core.run (n + 1) s = .next t) : ∃ u, step s = .next u ∧ core.run n u = .next t := by
  obtain ⟨u, steps⟩ := step_answers s
  exact ⟨u, steps, (run_succ steps n).symm.trans h⟩

/-- What every step keeps, every run keeps. -/
theorem run_keeps {P : State → Prop} (keeps : ∀ s t, P s → step s = .next t → P t) (n : Nat) :
    ∀ {s t : State}, P s → core.run n s = .next t → P t := by
  induction n with
  | zero =>
    intro s t start runs
    cases runs
    exact start
  | succ n ih =>
    intro s t start runs
    obtain ⟨u, steps, rest⟩ := run_succ_eq_next runs
    exact ih (keeps s u start steps) rest

/-- Settles O15, by induction on the number of steps. -/
theorem stoppedMachineNeverChanges : Obligations.StoppedMachineNeverChanges := by
  intro n s stopped
  induction n with
  | zero => exact run_zero s
  | succ n ih => exact (run_succ (step_of_stopped stopped) n).trans ih

/-- Settles O16, by induction on the number of steps. -/
theorem everyRunAnswersANextState : Obligations.EveryRunAnswersANextState := by
  intro n
  induction n with
  | zero => exact fun s => ⟨s, run_zero s⟩
  | succ n ih =>
    intro s
    obtain ⟨u, steps⟩ := step_answers s
    obtain ⟨t, rest⟩ := ih u
    exact ⟨t, (run_succ steps n).trans rest⟩

/-- Settles O51, by induction on the number of steps. -/
theorem outputOnlyGrows : Obligations.OutputOnlyGrows := by
  intro n
  induction n with
  | zero =>
    intro s t runs
    cases runs
    exact ⟨[], (List.append_nil _).symm, Nat.le_refl 0⟩
  | succ n ih =>
    intro s t runs
    obtain ⟨u, steps, rest⟩ := run_succ_eq_next runs
    obtain ⟨now, out, atMostOne⟩ := step_out steps
    obtain ⟨later, out', atMostN⟩ := ih u t rest
    refine ⟨now ++ later, by rw [out', out, List.append_assoc], ?_⟩
    rw [List.length_append]
    omega

/-- Settles O52, by induction on the number of steps: each step is the same step with the earlier bytes printed before. -/
theorem outputIsNeverReadBack : Obligations.OutputIsNeverReadBack := by
  intro n earlier
  induction n with
  | zero =>
    intro s t runs
    cases runs
    rfl
  | succ n ih =>
    intro s t runs
    obtain ⟨u, steps, rest⟩ := run_succ_eq_next runs
    exact (run_succ (step_printedBefore earlier steps) n).trans (ih u t rest)

end Sys2Proof.Machine
end

section
/-! SUPPORT. Reset and boot (rules R24, R112, R114), the invariant along every run from boot, and the canonical form of memory: a list of cells is
determined by what it reads as (log entry 15). -/

namespace Sys2Proof.Machine

open Sys2Proof.Claims

/-! ### Reset and boot -/

/-- Settles O2: the table, register by register. -/
theorem resetLeavesTheTabledValues : Obligations.ResetLeavesTheTabledValues := by
  have others : ∀ r : BitVec 3, r ≠ 7#3 → State.reset.reg r = 0x00#8 := by decide
  exact ⟨rfl, others, rfl, rfl, rfl, fun _ => rfl, rfl, rfl, rfl⟩

/-- Settles O4: what boots is the reset state with another memory, and the length check refuses the rest. -/
theorem bootChangesMemoryAlone : Obligations.BootChangesMemoryAlone := by
  refine ⟨fun image s boots => ?frame, fun image tooLong => if_neg (Nat.not_le.mpr tooLong)⟩
  rw [boot_frame boots]
  exact ⟨fun _ _ => rfl, rfl, rfl, ⟨rfl, rfl, rfl, rfl, rfl⟩, rfl⟩

/-- A booted machine has the invariant: booting keeps all of reset but memory, and places bytes in canonical form. -/
theorem inv_of_boot {image : List Byte} {s : State} (boots : State.boot image = some s) : s.Inv := by
  have fits : image.length ≤ 256 := (Option.ite_none_right_eq_some.mp boots).1
  have wf : s.mem.wf = true := by
    rw [eq_placeBytes_of_boot boots]
    exact placeBytes_wf image State.reset 0 (by omega) reset_mem_wf
  refine ⟨wf, ?_⟩
  rw [boot_frame boots]
  exact ⟨rfl, rfl, rfl⟩

/-- Settles O56: booting establishes the invariant and every step keeps it. -/
theorem everyRunFromBootHasTheInvariant : Obligations.EveryRunFromBootHasTheInvariant :=
  fun _ _ n _ boots runs => run_keeps everyStepKeepsTheInvariant n (inv_of_boot boots) runs

/-! ### The canonical form of memory -/

/-- A canonical memory reads as blank up to the bound that its addresses are above. -/
theorem Memory.read_of_wfAbove {m : Memory} {l a : Nat} (h : Memory.wfAbove (some l) m = true) (low : a ≤ l) : m.read a = Config.blank := by
  induction m generalizing l with
  | nil => rfl
  | cons c m ih =>
    obtain ⟨k, w⟩ := c
    obtain ⟨above, -, -, rest⟩ := (Memory.wfAbove_cons ..).mp h
    have lt : l < k := of_decide_eq_true above
    rw [Memory.read, if_neg (by omega)]
    exact ih rest (by omega)

/-- A cell below the first cell of a canonical memory reads as blank. -/
theorem Memory.read_lt_first {lo : Option Nat} {m : Memory} {k a : Nat} {w : Byte} (h : Memory.wfAbove lo ((k, w) :: m) = true) (low : a < k) :
    Memory.read ((k, w) :: m) a = Config.blank := by
  obtain ⟨-, -, -, rest⟩ := (Memory.wfAbove_cons ..).mp h
  rw [Memory.read, if_neg (by omega)]
  exact Memory.read_of_wfAbove rest (by omega)

theorem Memory.read_first (m : Memory) (k : Nat) (w : Byte) : Memory.read ((k, w) :: m) k = w := if_pos rfl

/-- Of two canonical memories that read the same, neither begins below the other: its first cell would read as blank there. -/
theorem Memory.first_le_first {lo : Option Nat} {m n : Memory} {k l : Nat} {v w : Byte} (hm : Memory.wfAbove lo ((k, v) :: m) = true)
    (hn : Memory.wfAbove lo ((l, w) :: n) = true) (reads : ∀ a, Memory.read ((k, v) :: m) a = Memory.read ((l, w) :: n) a) : l ≤ k := by
  by_contra lower
  obtain ⟨-, -, notBlank, -⟩ := (Memory.wfAbove_cons ..).mp hm
  apply notBlank
  rw [← Memory.read_first m k v, reads, Memory.read_lt_first hn (by omega)]

/-- Reading everywhere as the empty memory does is having no cell. -/
theorem Memory.eq_nil_of_read_blank {lo : Option Nat} {m : Memory} (hm : Memory.wfAbove lo m = true) (reads : ∀ a, m.read a = Config.blank) :
    m = [] := by
  cases m with
  | nil => rfl
  | cons c m =>
    obtain ⟨k, v⟩ := c
    obtain ⟨-, -, notBlank, -⟩ := (Memory.wfAbove_cons ..).mp hm
    exact absurd ((Memory.read_first m k v).symm.trans (reads k)) notBlank

/-- Memories in canonical form are determined by their reads. -/
theorem Memory.eq_of_read_eq {m : Memory} : ∀ {lo : Option Nat} {n : Memory}, Memory.wfAbove lo m = true → Memory.wfAbove lo n = true →
    (∀ a, m.read a = n.read a) → m = n := by
  induction m with
  | nil => exact fun _ hn reads => (Memory.eq_nil_of_read_blank hn fun a => (reads a).symm).symm
  | cons c m ih =>
    intro lo n hm hn reads
    cases n with
    | nil => exact Memory.eq_nil_of_read_blank hm reads
    | cons d n =>
      obtain ⟨k, v⟩ := c
      obtain ⟨l, w⟩ := d
      obtain rfl : k = l := Nat.le_antisymm (Memory.first_le_first hn hm fun a => (reads a).symm) (Memory.first_le_first hm hn reads)
      obtain rfl : v = w := (Memory.read_first m k v).symm.trans ((reads k).trans (Memory.read_first n k w))
      obtain ⟨-, -, -, restM⟩ := (Memory.wfAbove_cons ..).mp hm
      obtain ⟨-, -, -, restN⟩ := (Memory.wfAbove_cons ..).mp hn
      have tails (a : Nat) : Memory.read m a = Memory.read n a := by
        by_cases low : a ≤ k
        · rw [Memory.read_of_wfAbove restM low, Memory.read_of_wfAbove restN low]
        · have other : k ≠ a := by omega
          simpa only [Memory.read, if_neg other] using reads a
      rw [ih restM restN tails]

/-- Storing the value a cell holds leaves every read as it was. -/
theorem Memory.read_write_read (m : Memory) (a b : Nat) : (m.write a (m.read a)).read b = m.read b := by
  rw [Memory.read_write]
  split
  next same => rw [same]
  next => rfl

/-- Settles O58: reads determine a canonical memory, so a store that changes no read changes nothing. -/
theorem equalReadsMeanEqualMemories : Obligations.EqualReadsMeanEqualMemories := by
  refine ⟨fun m n hm hn reads => Memory.eq_of_read_eq hm hn reads, fun s a wf => ?rewrite⟩
  have same : s.mem.write a.toNat (s.loadByte a) = s.mem :=
    Memory.eq_of_read_eq (State.wf_storeByte s a _ wf) wf (s.mem.read_write_read a.toNat)
  rw [State.storeByte, same]

end Sys2Proof.Machine
end

section
/-! SUPPORT. The step against the spec's loop on raw bytes (rule R50): for each instruction exec is the body that its opcode byte selects, and the
four things fetch can find at pc are the branches of the loop. -/

namespace Sys2Proof.Machine

open Sys2Proof.Claims

/-! ### exec is the body that the opcode byte selects -/

/-- The register that an operand byte names is in its bits 2:0 (rule R39). -/
theorem reg_of_regByte {r : Reg} {o : Byte} (h : regByte r = o) : r = o.extractLsb' 0 3 := by
  have low : ∀ r : BitVec 3, r = (regByte r).extractLsb' 0 3 := by decide
  exact h ▸ low r

theorem reg_of_operands {r : Reg} {o1 o2 : Byte} (h : [regByte r] <+: [o1, o2]) : r = o1.extractLsb' 0 3 :=
  reg_of_regByte (List.cons_prefix_cons.mp h).1

theorem reg_byte_of_operands {r : Reg} {v o1 o2 : Byte} (h : [regByte r, v] <+: [o1, o2]) : r = o1.extractLsb' 0 3 ∧ v = o2 := by
  obtain ⟨first, rest⟩ := List.cons_prefix_cons.mp h
  exact ⟨reg_of_regByte first, (List.cons_prefix_cons.mp rest).1⟩

theorem reg_reg_of_operands {a b : Reg} {o1 o2 : Byte} (h : [regByte a, regByte b] <+: [o1, o2]) :
    a = o1.extractLsb' 0 3 ∧ b = o2.extractLsb' 0 3 :=
  (reg_byte_of_operands h).imp_right reg_of_regByte

/-- Both ends of an instruction as one conditional. -/
theorem exec_eq_ite (i : Instr) {s : State} (c : Prop) [Decidable c] (traps : trapsAtTop i s ↔ c) :
    exec i s = .next (if c then s.enterFault .invalidAddress else completed i s) := by
  split
  next h => exact exec_of_trapsAtTop (traps.mpr h)
  next h => exact exec_of_not_trapsAtTop (mt traps.mp h)

theorem exec_jeq (r : Reg) (s : State) : exec (.jeq r) s = .next (if s.flE = true then s.setPc (s.reg r)
    else if 255 < s.pc.toNat + 2 then s.enterFault .invalidAddress else s.setPc (BitVec.ofNat 8 (s.pc.toNat + 2))) := by
  cases flag : s.flE with
  | true => exact if_pos flag
  | false =>
    rw [exec_eq_ite (.jeq r) (255 < s.pc.toNat + 2) (and_iff_right flag), completed, pcTarget, flag]
    rfl

theorem exec_jne (r : Reg) (s : State) : exec (.jne r) s = .next (if s.flE = true then
      if 255 < s.pc.toNat + 2 then s.enterFault .invalidAddress else s.setPc (BitVec.ofNat 8 (s.pc.toNat + 2))
    else s.setPc (s.reg r)) := by
  cases flag : s.flE with
  | false => exact if_pos flag
  | true =>
    rw [exec_eq_ite (.jne r) (255 < s.pc.toNat + 2) (and_iff_right flag), completed, pcTarget, flag]
    rfl

theorem exec_call (r : Reg) (s : State) : exec (.call r) s = .next (if 255 < s.pc.toNat + 2 then s.enterFault .invalidAddress
    else (effect (.call r) s).setPc (s.decSp.reg r)) := by
  rw [← completed_call]
  exact exec_eq_ite (.call r) _ Iff.rfl

/-- With IR loaded, exec of an instruction other than HLT is the body that its opcode byte selects, on operand bytes `o1` and `o2` that begin
with its own. -/
theorem exec_eq_pseudoBody {i : Instr} (notHlt : i ≠ .hlt) {o1 o2 : Byte} (operands : i.operandBytes <+: [o1, o2]) (s : State) :
    exec i (s.setIr i.opcode.byte) = .next (pseudoBody i.opcode.byte o1 o2 (s.setIr i.opcode.byte)) := by
  cases i with
  | hlt => exact absurd rfl notHlt
  | ret => rfl
  | jmp r =>
    obtain rfl := reg_of_operands operands
    rfl
  | push r | pop r | prn r =>
    obtain rfl := reg_of_operands operands
    exact exec_eq_ite _ _ Iff.rfl
  | call r =>
    obtain rfl := reg_of_operands operands
    exact exec_call _ _
  | jeq r =>
    obtain rfl := reg_of_operands operands
    exact exec_jeq _ _
  | jne r =>
    obtain rfl := reg_of_operands operands
    exact exec_jne _ _
  | ldi r v =>
    obtain ⟨rfl, rfl⟩ := reg_byte_of_operands operands
    exact exec_eq_ite _ _ Iff.rfl
  | st a b | add a b | mul a b | cmp a b =>
    obtain ⟨rfl, rfl⟩ := reg_reg_of_operands operands
    exact exec_eq_ite _ _ Iff.rfl

/-! ### Fetch is the loop -/

theorem counts_of_mem_opcodesN : ∀ op ∈ WellFormed.opcodesN, WellFormed.operandCount op = some 0 ∧ WellFormed.regOperandCount op = 0 := by
  decide

theorem counts_of_mem_opcodesR : ∀ op ∈ WellFormed.opcodesR, WellFormed.operandCount op = some 1 ∧ WellFormed.regOperandCount op = 1 := by
  decide

theorem counts_of_mem_opcodesRI : ∀ op ∈ WellFormed.opcodesRI, WellFormed.operandCount op = some 2 ∧ WellFormed.regOperandCount op = 1 := by
  decide

theorem counts_of_mem_opcodesRR : ∀ op ∈ WellFormed.opcodesRR, WellFormed.operandCount op = some 2 ∧ WellFormed.regOperandCount op = 2 := by
  decide

theorem counts_of_mem_two {op : Byte} (h : op ∈ WellFormed.opcodesRI ∨ op ∈ WellFormed.opcodesRR) :
    WellFormed.operandCount op = some 2 ∧ 0 < WellFormed.regOperandCount op := by
  obtain mem | mem := h
  · obtain ⟨count, one⟩ := counts_of_mem_opcodesRI op mem
    exact ⟨count, one ▸ Nat.zero_lt_one⟩
  · obtain ⟨count, two⟩ := counts_of_mem_opcodesRR op mem
    exact ⟨count, two ▸ Nat.zero_lt_two⟩

/-- A well-formed instruction other than HLT at pc: the step is the body that the byte there selects, on the two bytes after it. -/
theorem step_eq_pseudoBody {s : State} {n : Nat} (running : s.run = .running) (notHlt : s.loadByte s.pc ≠ 0x01#8)
    (count : WellFormed.operandCount (s.loadByte s.pc) = some n) (upTo : ¬ 255 < s.pc.toNat + n)
    (legal : ¬ ∃ k, k < WellFormed.regOperandCount (s.loadByte s.pc) ∧ 7 < (byteAt s (s.pc.toNat + 1 + k)).toNat) :
    step s = .next (pseudoBody (s.loadByte s.pc) (byteAt s (s.pc.toNat + 1)) (byteAt s (s.pc.toNat + 2)) s.loaded) := by
  obtain ⟨i, fetched, bytes⟩ := fetch_wellFormed count upTo legal
  have opcode := opcode_of_fetch fetched
  have operands : i.operandBytes = (List.range' (s.pc.toNat + 1) n).map s.mem.read := (List.cons.inj bytes).2
  have within : i.operandBytes <+: [byteAt s (s.pc.toNat + 1), byteAt s (s.pc.toNat + 2)] := by
    obtain ⟨more, two⟩ := Nat.exists_eq_add_of_le (operandCount_le count)
    have both : [byteAt s (s.pc.toNat + 1), byteAt s (s.pc.toNat + 2)] = (List.range' (s.pc.toNat + 1) (n + more)).map s.mem.read := by
      rw [← two]
      rfl
    rw [operands, both, ← List.range'_append_1, List.map_append]
    exact ⟨_, rfl⟩
  have notHalt : i ≠ .hlt := by
    rintro rfl
    exact notHlt opcode
  rw [step_of_fetch running fetched, State.loaded, fetchOpcode, opcode]
  exact exec_eq_pseudoBody notHalt within s

theorem registers_legal_of_one {s : State} {m : Nat} (one : m = 1) (ok : ¬ 7 < (byteAt s (s.pc.toNat + 1)).toNat) :
    ¬ ∃ k, k < m ∧ 7 < (byteAt s (s.pc.toNat + 1 + k)).toNat := by
  rintro ⟨k, inside, high⟩
  obtain rfl : k = 0 := by omega
  exact ok high

theorem registers_legal_of_two {s : State} {m : Nat} (two : m = 2) (ok : ¬ 7 < (byteAt s (s.pc.toNat + 1)).toNat)
    (ok' : ¬ 7 < (byteAt s (s.pc.toNat + 2)).toNat) : ¬ ∃ k, k < m ∧ 7 < (byteAt s (s.pc.toNat + 1 + k)).toNat := by
  rintro ⟨k, inside, high⟩
  obtain rfl | rfl : k = 0 ∨ k = 1 := by omega
  · exact ok high
  · exact ok' high

/-- Settles O17: along the branches of the loop, each is what fetch finds at pc. -/
theorem stepIsThePseudocodeOfTheSpec : Obligations.StepIsThePseudocodeOfTheSpec := by
  intro s running
  unfold pseudoStep
  simp only
  split_ifs with hlt memN memR above bad memTwo above bad bad'
  · exact step_of_fetch running (fetch_of_opcode (o := .hlt) hlt rfl)
  · obtain ⟨count, zero⟩ := counts_of_mem_opcodesN _ memN
    have legal : ¬ ∃ k, k < WellFormed.regOperandCount (s.loadByte s.pc) ∧ 7 < (byteAt s (s.pc.toNat + 1 + k)).toNat :=
      fun ⟨k, inside, _⟩ => k.not_lt_zero (inside.trans_eq zero)
    exact step_eq_pseudoBody running hlt count (by omega) legal
  · obtain ⟨count, -⟩ := counts_of_mem_opcodesR _ memR
    exact step_of_fetch_error running (fetch_missing count above)
  · obtain ⟨count, one⟩ := counts_of_mem_opcodesR _ memR
    exact step_of_fetch_error running (fetch_badRegister count above ⟨0, one ▸ Nat.zero_lt_one, bad⟩)
  · obtain ⟨count, one⟩ := counts_of_mem_opcodesR _ memR
    exact step_eq_pseudoBody running hlt count above (registers_legal_of_one one bad)
  · obtain ⟨count, -⟩ := counts_of_mem_two memTwo
    exact step_of_fetch_error running (fetch_missing count above)
  · obtain ⟨count, positive⟩ := counts_of_mem_two memTwo
    exact step_of_fetch_error running (fetch_badRegister count above ⟨0, positive, bad⟩)
  · obtain ⟨memRR, bad'⟩ := bad'
    obtain ⟨count, two⟩ := counts_of_mem_opcodesRR _ memRR
    exact step_of_fetch_error running (fetch_badRegister count above ⟨1, two ▸ Nat.one_lt_two, bad'⟩)
  · obtain memRI | memRR := memTwo
    · obtain ⟨count, one⟩ := counts_of_mem_opcodesRI _ memRI
      exact step_eq_pseudoBody running hlt count above (registers_legal_of_one one bad)
    · obtain ⟨count, two⟩ := counts_of_mem_opcodesRR _ memRR
      exact step_eq_pseudoBody running hlt count above (registers_legal_of_two two bad fun high => bad' ⟨memRR, high⟩)
  · exact step_of_fetch_error running (fetch_unknown (operandCount_of_not_mem memN memR memTwo))

end Sys2Proof.Machine
end
